-- ==== Sys2Proof/Word.lean ====
section
/-! DEFINITION. The machine's data types: a register word, a program cell, an output digit. -/

namespace Sys2Proof

/-- The content of A, B or C: a 64-bit signed integer in two's complement (R8, R23).
Its signed value is `BitVec.toInt`. -/
abbrev Word := BitVec 64

/-- One program cell. This hardware's cells are CELL_W = 3 bits wide and hold 0 to 7 (R4, R51); the model keeps a cell in a byte, as
`Host.Cell` does, so that the faults R164 defines for wider cells have a meaning too (log entry 4). -/
abbrev Cell := BitVec 8

/-- One digit of the output accumulator, 0 to 7 (R31, R151). -/
abbrev Digit := Fin 8

end Sys2Proof
end

