-- ==== Sys2Proof/Machine/Alu.lean ====
section
/-! DEFINITION. The three arithmetic primitives (R9, R10, R11), written over the mathematical integers where the spec
writes them so. The machine has no flags (R34), so no operation computes one. -/

namespace Sys2Proof.Machine

/-- Arithmetic shift right: `floor(a / 2^n)` over the integers, for every `n` in `0 ..= 255` (R9, R114). -/
def asr (a : Word) (n : Nat) : Word := BitVec.ofInt 64 (a.toInt.fdiv ((2 ^ n : Nat) : Int))

/-- The non-negative remainder of the signed value (R10). -/
def emod (a : Word) (m : Nat) : Nat := (a.toInt % (m : Int)).toNat

/-- Bitwise exclusive or of the two's-complement patterns (R11). -/
def xor64 (a b : Word) : Word := a ^^^ b

/-- A cell's value as a register value, zero-extended (00_scope.md section 4). -/
def zext64 (c : Cell) : Word := BitVec.ofNat 64 c.toNat

/-- A remainder by a positive number is below it (R10). -/
theorem emod_lt (a : Word) {m : Nat} (h : 0 < m) : emod a m < m := by
  unfold emod
  have h1 : 0 ≤ a.toInt % (m : Int) := Int.emod_nonneg _ (by omega)
  have h2 : a.toInt % (m : Int) < m := Int.emod_lt_of_pos _ (by omega)
  omega

/-- The shift amount an operand value gives: `emod(v, 256)`, in `0 ..= 255` (R110). -/
def shiftAmount (v : Word) : Nat := emod v 256

/-- The digit an operand value gives: `emod(v, 8)`, in `0 ..= 7` (R150, R151). -/
def digitOf (v : Word) : Digit := ⟨emod v 8, emod_lt v (by decide)⟩

/-- What all three shift instructions compute from A and the operand value (R110). -/
def shiftResult (a v : Word) : Word := asr a (shiftAmount v)

end Sys2Proof.Machine
end

