-- ==== Sys2Proof/Config.lean ====
section
/-! DEFINITION. The implementation parameters that R4 leaves OPEN. The parameters R4 fixes are: XLEN 64 (`Word`),
NREG 3, NOPC 8, ILEN 2, SHAMT_MOD 256, DIGIT_MOD 8 (`Digit`), CELL_W 3 (`Instr.WellFormed`, `isCell`), no STEP_CAP. -/

namespace Sys2Proof

/-- The OPEN parameters of R4, `none` standing for "unbounded". They are fixed for a machine and stand in its
State, so that a statement about every state is one about every implementation (log entry 2). -/
structure Params where
  /-- IP_W, the width of `ip` in bits (R4, R27, decision D7). -/
  ipWidth : Option Nat
  /-- OUT_CAP, the capacity of the output accumulator in digits (R4, R64, decision D8). -/
  outCap : Option Nat
  deriving DecidableEq, Repr

/-- What R4 asks of the parameters: a finite IP_W is at least 4. -/
def Params.valid (p : Params) : Bool :=
  match p.ipWidth with
  | none => true
  | some w => decide (4 ≤ w)

/-- A program of `n` cells is not too long: `L <= 2^IP_W - 2` where IP_W is finite (R4, R191). -/
def Params.admits (p : Params) (n : Nat) : Bool :=
  match p.ipWidth with
  | none => true
  | some w => decide (n ≤ 2 ^ w - 2)

end Sys2Proof
end

