-- ==== Sys2Proof/Syntax.lean ====
section
/-! DEFINITION. The eight instructions (R75), one constructor per row of spec/opcode_table.json, each with its
raw operand cell (R70). -/

namespace Sys2Proof

/-- An instruction: its opcode is the constructor, its operand cell the argument (R70, R75). -/
inductive Instr where
  /-- opcode 0, combo operand (R111) -/
  | shiftA (operand : Cell)
  /-- opcode 1, literal operand (R120) -/
  | xorLiteralB (operand : Cell)
  /-- opcode 2, combo operand (R130) -/
  | modB (operand : Cell)
  /-- opcode 3, literal operand (R140) -/
  | jumpIfANonzero (operand : Cell)
  /-- opcode 4, operand ignored (R121, R78) -/
  | xorBC (operand : Cell)
  /-- opcode 5, combo operand (R150) -/
  | emit (operand : Cell)
  /-- opcode 6, combo operand (R112) -/
  | shiftB (operand : Cell)
  /-- opcode 7, combo operand (R113) -/
  | shiftC (operand : Cell)
  deriving DecidableEq, Repr

/-- How an instruction reads its operand cell (R72). -/
inductive OperandKind where
  | combo
  | literal
  | ignored
  deriving DecidableEq, Repr

/-- The operand kind is fixed per opcode (R72). -/
def Instr.operandKind : Instr → OperandKind
  | .shiftA _ => .combo
  | .xorLiteralB _ => .literal
  | .modB _ => .combo
  | .jumpIfANonzero _ => .literal
  | .xorBC _ => .ignored
  | .emit _ => .combo
  | .shiftB _ => .combo
  | .shiftC _ => .combo

/-- The raw operand cell. -/
def Instr.operand : Instr → Cell
  | .shiftA o => o
  | .xorLiteralB o => o
  | .modB o => o
  | .jumpIfANonzero o => o
  | .xorBC o => o
  | .emit o => o
  | .shiftB o => o
  | .shiftC o => o

end Sys2Proof
end

