-- ==== Sys2Proof/Machine/State.lean ====
section
/-! DEFINITION. The state of the engine as plain data (R20, R32, R36), the reasons a step can stop, and the state
after reset. -/

namespace Sys2Proof.Machine

/-- The contents of the `cause` field (R32, R161). -/
inductive Cause where
  /-- code 0: no fault recorded -/
  | noFault
  /-- code 1: a combo instruction executed with operand cell 7 (R162) -/
  | reservedCombo
  /-- code 2: a taken jump with an odd literal (R163) -/
  | misalignedJump
  /-- code 3: the fetched opcode cell exceeds 7 (R164) -/
  | illegalOpcode
  /-- code 4: the fetched operand cell of a literal or combo instruction exceeds 7 (R164) -/
  | illegalOperand
  /-- code 5: the operand cell lies outside the program (R165) -/
  | truncatedInstruction
  /-- code 6: `out` already holds OUT_CAP digits (R166) -/
  | outputOverflow
  deriving DecidableEq, Repr

/-- The values of the `status` field (R32): codes 0 RUN, 1 HALT, 2 FAULT. -/
inductive Status where
  | run
  | halt
  | fault
  deriving DecidableEq, Repr

/-- The program memory: (index, cell) pairs in one canonical form, indices strictly rising, no cell equal to what an
unlisted index reads as (R50, R51, R57; log entry 3). Its operations are in Machine/Memory.lean. -/
abbrev Memory := List Host.Cell

/-- What an unlisted index inside the program reads as (log entry 3). A launch gives every cell of the program
(R190), so this is a convention of the representation: a cell of value 0 is not listed. -/
def unlistedCell : Cell := 0

/-- The engine's state. `status` is not stored: it is a function of `cause`, `ip` and `len` (R32, R91). -/
structure State where
  /-- register A (R23) -/
  a : Word
  /-- register B (R23) -/
  b : Word
  /-- register C (R23) -/
  c : Word
  /-- the instruction pointer, a cell index (R27) -/
  ip : Nat
  /-- the output accumulator, oldest digit first (R31) -/
  out : List Digit
  /-- the fault record's cause (R32); a fault is recorded exactly when it is not `noFault` -/
  cause : Cause
  /-- the fault record's `fault_ip` (R32) -/
  faultIp : Nat
  /-- the launched program (R22, R50) -/
  prog : Memory
  /-- L, the program's length in cells (R4, R22) -/
  len : Nat
  /-- the implementation's OPEN parameters (R4) -/
  params : Params
  deriving DecidableEq, Repr

/-- Why no step is defined from a state. The machine's own faults (R161) are no `Fault`: their entry is a next state
(R167, log entry 5), and the steps after it are stopped here. -/
inductive Fault where
  /-- Raised by `step` in a halted state: `ip >= L`, no step is defined from it (R91). Safe: the run is over. -/
  | runHalted
  /-- Raised by `step` in a faulted state: no step is defined from it (R168). Safe: the run is over. -/
  | runFaulted
  deriving DecidableEq, Repr

/-- Why an instruction is given no meaning. Every instruction of this machine has one, so nothing raises it. -/
inductive Refusal where
  /-- For an arm of `exec` with no meaning yet; raised by none. Safe: the model stops. -/
  | notModelled (mnemonic : String)
  deriving DecidableEq, Repr

/-- The outcome of a step or of an instruction. -/
abbrev Result := Host.Outcome State Fault Refusal

/-- The machine right after reset. Its only reset is a launch (R36, R190); this is the state that the launch of the
empty program with `a0 = b0 = c0 = 0` creates on an implementation with both OPEN parameters unbounded (log entries
1 and 2): `ip` 0, `out` empty, no fault recorded, as R36 says, and halted, since `L = 0`. -/
def State.reset : State :=
  { a := 0, b := 0, c := 0, ip := 0, out := [], cause := .noFault, faultIp := 0, prog := [], len := 0,
    params := { ipWidth := none, outCap := none } }

end Sys2Proof.Machine
end

