-- ==== Sys2Proof/Machine/Memory.lean ====
section
/-! DEFINITION. The operations of the program memory: reading a cell, placing a cell, loading a program. -/

namespace Sys2Proof.Machine

/-- The canonical form: indices strictly rising and no entry equal to what an unlisted index reads as. -/
abbrev Memory.wf (m : Memory) : Prop :=
  m.Pairwise (fun x y => x.1 < y.1) ∧ ∀ e ∈ m, e.2 ≠ unlistedCell

/-- The cell at an index. -/
def Memory.read (m : Memory) (k : Nat) : Cell :=
  match m with
  | [] => unlistedCell
  | (j, v) :: rest => if j = k then v else Memory.read rest k

/-- An entry for a cell in front of a memory, left out where the cell is what an unlisted index reads as. -/
def Memory.entry (k : Nat) (v : Cell) (m : Memory) : Memory :=
  if v = unlistedCell then m else (k, v) :: m

/-- Place a cell. No instruction does (R61); the loading of a program does. -/
def Memory.write (m : Memory) (k : Nat) (v : Cell) : Memory :=
  match m with
  | [] => Memory.entry k v []
  | (j, w) :: rest =>
    if k < j then Memory.entry k v ((j, w) :: rest)
    else if k = j then Memory.entry k v rest
    else (j, w) :: Memory.write rest k v

/-- The memory that holds a list of cells from an index on (a launch fixes `prog`, R190). -/
def Memory.load (k : Nat) : List Cell → Memory
  | [] => []
  | v :: rest => Memory.entry k v (Memory.load (k + 1) rest)

/-- The `n` cells from index `k` on. -/
def Memory.slice (m : Memory) (k : Nat) : Nat → List Cell
  | 0 => []
  | n + 1 => m.read k :: Memory.slice m (k + 1) n

end Sys2Proof.Machine
end

