-- ==== Sys2Proof/Machine/Ops.lean ====
section
/-! DEFINITION. The named operations over the state: registers, `ip`, status, the one fault entry, the two memory
primitives. -/

namespace Sys2Proof.Machine

/-- The three general registers (R23). -/
inductive Reg where
  | A
  | B
  | C
  deriving DecidableEq, Repr

/-- Read a register (R23). -/
def State.getReg (s : State) : Reg → Word
  | .A => s.a
  | .B => s.b
  | .C => s.c

/-- Write a register; none is hard-wired (R23). -/
def State.setReg (s : State) (r : Reg) (v : Word) : State :=
  match r with
  | .A => { s with a := v }
  | .B => { s with b := v }
  | .C => { s with c := v }

/-- Set the instruction pointer. -/
def State.setIp (s : State) (k : Nat) : State := { s with ip := k }

/-- The default advance of `ip`, by the two cells of the instruction (R28, R98). -/
def State.advance (s : State) : State := s.setIp (s.ip + 2)

/-- The `status` field: FAULT if a fault is recorded, else HALT if `ip >= L`, else RUN (R32, R91). -/
def State.status (s : State) : Status :=
  if s.cause ≠ .noFault then .fault else if s.len ≤ s.ip then .halt else .run

/-- The two bits of `status` (R32). -/
def Status.code : Status → BitVec 2
  | .run => 0
  | .halt => 1
  | .fault => 2

/-- The three bits of `cause` (R161). -/
def Cause.code : Cause → BitVec 3
  | .noFault => 0
  | .reservedCombo => 1
  | .misalignedJump => 2
  | .illegalOpcode => 3
  | .illegalOperand => 4
  | .truncatedInstruction => 5
  | .outputOverflow => 6

/-- Fault entry (R167): the cause and the `ip` of the faulting instruction are recorded, and nothing else changes. With
a cause recorded, `status` is FAULT. There is no return from it (R168). -/
def State.enterFault (s : State) (f : Cause) : State := { s with cause := f, faultIp := s.ip }

/-- `raise` in an instruction: its outcome is the state with the fault recorded (R90, R99, R160; log entry 5). -/
def raise (s : State) (f : Cause) : Result := .next (s.enterFault f)

/-- `MemRead(addr, n)` (R63): the `n` program cells from `addr` on, where all of them lie in the program. -/
def memRead (s : State) (addr n : Nat) : Option (List Cell) :=
  if addr + n ≤ s.len then some (s.prog.slice addr n) else none

/-- The accumulator is full: a finite OUT_CAP is reached (R64). -/
def State.outFull (s : State) : Bool :=
  match s.params.outCap with
  | none => false
  | some cap => decide (cap ≤ s.out.length)

/-- `OutAppend(d)` (R64): one digit more at the end, or nothing where the accumulator is full. -/
def outAppend (s : State) (d : Digit) : Option State :=
  if s.outFull then none else some { s with out := s.out ++ [d] }

end Sys2Proof.Machine
end

