-- ==== Sys2Proof/Machine/Operands.lean ====
section
/-! DEFINITION. The operand resolvers (R94, R95). Both check the range of the cell first: the fault of an operand cell
above 7 comes before every other of the instruction (R164, R169). -/

namespace Sys2Proof.Machine

/-- The combo-operand resolver: 0 to 3 are the numbers, 4, 5, 6 the registers' current values, 7 is reserved (R74, R94). -/
def combo (s : State) (sel : Cell) : Except Cause Word :=
  match sel.toNat with
  | 0 => .ok (zext64 sel)
  | 1 => .ok (zext64 sel)
  | 2 => .ok (zext64 sel)
  | 3 => .ok (zext64 sel)
  | 4 => .ok (s.getReg .A)
  | 5 => .ok (s.getReg .B)
  | 6 => .ok (s.getReg .C)
  | 7 => .error .reservedCombo
  | _ => .error .illegalOperand

/-- The literal resolver: the raw number 0 to 7 (R73, R95). -/
def literal (sel : Cell) : Except Cause Word :=
  if sel.toNat ≤ 7 then .ok (zext64 sel) else .error .illegalOperand

/-- Run an instruction's effect on its resolved operand, or raise the resolver's fault before any effect (R90, R160). -/
def withOperand (s : State) (resolved : Except Cause Word) (effect : Word → Result) : Result :=
  match resolved with
  | .ok v => effect v
  | .error f => raise s f

/-- Write one register and advance `ip`: how every arithmetic instruction ends (R97, R98). -/
def writeBack (s : State) (r : Reg) (v : Word) : Result := .next (s.setReg r v).advance

end Sys2Proof.Machine
end

