-- ==== Sys2Proof/Machine/Emit.lean ====
section
/-! DEFINITION. The output instruction, opcode 5 (R150). -/

namespace Sys2Proof.Machine

/-- `emit` (R150): one digit is appended, or OutputOverflow is raised where a finite OUT_CAP is reached (R64, R166). -/
def execEmit (sel : Cell) (s : State) : Result :=
  withOperand s (combo s sel) fun v =>
    match outAppend s (digitOf v) with
    | some t => .next t.advance
    | none => raise s .outputOverflow

end Sys2Proof.Machine
end

