-- ==== Sys2Proof/Machine/Jump.lean ====
section
/-! DEFINITION. The control transfer, opcode 3 (R140 to R142). -/

namespace Sys2Proof.Machine

/-- `jump-if-A-nonzero` (R140): an absolute cell index, taken when A is not zero; a taken odd one faults (R141). A
target at or above L is no error: the next state is halted (R142). -/
def execJumpIfANonzero (sel : Cell) (s : State) : Result :=
  withOperand s (literal sel) fun t =>
    if s.getReg .A ≠ 0 then
      if t.toNat % 2 = 1 then raise s .misalignedJump else .next (s.setIp t.toNat)
    else .next s.advance

end Sys2Proof.Machine
end

