-- ==== Sys2Proof/Machine/Modulo.lean ====
section
/-! DEFINITION. The modulo instruction, opcode 2 (R130). -/

namespace Sys2Proof.Machine

/-- `mod-B` (R130). -/
def execModB (sel : Cell) (s : State) : Result :=
  withOperand s (combo s sel) fun v => writeBack s .B (BitVec.ofNat 64 (emod v 8))

end Sys2Proof.Machine
end

