-- ==== Sys2Proof/Machine/Shift.lean ====
section
/-! DEFINITION. The shift instructions, opcodes 0, 6 and 7 (R110 to R113): one value, three destinations. -/

namespace Sys2Proof.Machine

/-- A shifted right by the low byte of the combo operand, into a register; both are read before the write (R97, R110). -/
def shiftInto (r : Reg) (sel : Cell) (s : State) : Result :=
  withOperand s (combo s sel) fun v => writeBack s r (shiftResult (s.getReg .A) v)

/-- `shift-A` (R111). -/
def execShiftA (sel : Cell) (s : State) : Result := shiftInto .A sel s

/-- `shift-B` (R112). -/
def execShiftB (sel : Cell) (s : State) : Result := shiftInto .B sel s

/-- `shift-C` (R113). -/
def execShiftC (sel : Cell) (s : State) : Result := shiftInto .C sel s

end Sys2Proof.Machine
end

