-- ==== Sys2Proof/Machine/Xor.lean ====
section
/-! DEFINITION. The exclusive-or instructions, opcodes 1 and 4 (R120, R121). -/

namespace Sys2Proof.Machine

/-- `xor-literal-B` (R120). -/
def execXorLiteralB (sel : Cell) (s : State) : Result :=
  withOperand s (literal sel) fun v => writeBack s .B (xor64 (s.getReg .B) v)

/-- `xor-B-C` (R121): the operand cell is neither resolved nor checked (R78). -/
def execXorBC (_sel : Cell) (s : State) : Result :=
  writeBack s .B (xor64 (s.getReg .B) (s.getReg .C))

end Sys2Proof.Machine
end

