-- ==== Sys2Proof/Machine/Dispatch.lean ====
section
/-! DEFINITION. The meaning of every instruction, one arm per constructor (R75). -/

namespace Sys2Proof.Machine

def exec (i : Instr) (s : State) : Host.Outcome State Fault Refusal :=
  match i with
  | .shiftA o => Sys2Proof.Machine.execShiftA o s
  | .xorLiteralB o => Sys2Proof.Machine.execXorLiteralB o s
  | .modB o => Sys2Proof.Machine.execModB o s
  | .jumpIfANonzero o => Sys2Proof.Machine.execJumpIfANonzero o s
  | .xorBC o => Sys2Proof.Machine.execXorBC o s
  | .emit o => Sys2Proof.Machine.execEmit o s
  | .shiftB o => Sys2Proof.Machine.execShiftB o s
  | .shiftC o => Sys2Proof.Machine.execShiftC o s

end Sys2Proof.Machine
end

