-- ==== Sys2Proof/WellFormed.lean ====
section
/-! DEFINITION. Which instructions this hardware's cells can hold. -/

namespace Sys2Proof

/-- The operand cell is in `0 ..= 7` (R70, R73): the one thing a pair of 3-bit cells imposes. The reserved
selector 7 and the odd jump literals are well formed: they fault when executed, not before (R77, R79). -/
abbrev Instr.WellFormed (i : Instr) : Prop := i.operand.toNat ≤ 7

end Sys2Proof
end

