-- ==== Sys2Proof/Decode.lean ====
section
/-! DEFINITION. Decoding of cells (R53, R70, R75, R93), its rejections by name (R164, R165), the encoder, the
instruction word `iw` of R71 with the opcode table over it, and the classification of encodings (R76). -/

namespace Sys2Proof

/-- Why cells are no instruction; the step turns each into the fault of the same name. -/
inductive DecodeError where
  /-- fewer than two cells (R165) -/
  | truncated
  /-- the opcode cell exceeds 7 (R164) -/
  | illegalOpcode
  /-- the operand cell of a literal or combo instruction exceeds 7 (R164) -/
  | illegalOperand
  deriving DecidableEq, Repr

/-- The instruction an opcode cell selects, applied to an operand cell (R75). -/
def instrOfOpcode (opcode operand : Cell) : Option Instr :=
  match opcode.toNat with
  | 0 => some (.shiftA operand)
  | 1 => some (.xorLiteralB operand)
  | 2 => some (.modB operand)
  | 3 => some (.jumpIfANonzero operand)
  | 4 => some (.xorBC operand)
  | 5 => some (.emit operand)
  | 6 => some (.shiftB operand)
  | 7 => some (.shiftC operand)
  | _ => none

/-- Decode one pair of cells, in the order of R169: the opcode is checked first, then the operand, which opcode 4
ignores and so does not check (R78, R164). -/
def decodePair (opcode operand : Cell) : Except DecodeError Instr :=
  match instrOfOpcode opcode operand with
  | none => .error .illegalOpcode
  | some i =>
    if i.operandKind ≠ .ignored ∧ 7 < operand.toNat then .error .illegalOperand else .ok i

/-- Decode the instruction at the head of a list of cells, the opcode at the lower index (R53), and give the cells
after it. -/
def decode : List Cell → Except DecodeError (Instr × List Cell)
  | opcode :: operand :: rest =>
    match decodePair opcode operand with
    | .ok i => .ok (i, rest)
    | .error e => .error e
  | _ => .error .truncated

/-- The opcode cell of an instruction (R75). -/
def Instr.opcode : Instr → Cell
  | .shiftA _ => 0
  | .xorLiteralB _ => 1
  | .modB _ => 2
  | .jumpIfANonzero _ => 3
  | .xorBC _ => 4
  | .emit _ => 5
  | .shiftB _ => 6
  | .shiftC _ => 7

/-- The two cells of an instruction, opcode first (R53, R70). -/
def encode (i : Instr) : List Cell := [i.opcode, i.operand]

/-- The instruction word `iw = 8 * opcode + operand` of R71. -/
def instrWord (i : Instr) : Nat := 8 * i.opcode.toNat + i.operand.toNat

/-- The two cells of an instruction word given in `nbits` bits, R71's layout: the operand is `iw[2:0]`, the opcode
stands above it. -/
def cellsOfWord (nbits w : Nat) : Cell × Cell :=
  (BitVec.ofNat 8 (w % 2 ^ nbits / 8), BitVec.ofNat 8 (w % 2 ^ nbits % 8))

/-- The instruction this decoder reads from an instruction word (log entry 9). -/
def decodeTableWord (nbits w : Nat) : Option Instr :=
  match decode [(cellsOfWord nbits w).1, (cellsOfWord nbits w).2] with
  | .ok (i, _) => some i
  | .error _ => none

/-- One row of the opcode map (R71, R75): `w` is the row's instruction exactly when `w &&& mask = pattern`. -/
structure OpcodeRow where
  mnemonic : String
  pattern : Nat
  mask : Nat
  kind : OperandKind
  deriving DecidableEq, Repr

/-- The opcode map (R75), in the order of the opcodes. -/
def opcodeMap : List OpcodeRow :=
  [⟨"shift-A", 0, 56, .combo⟩, ⟨"xor-literal-B", 8, 56, .literal⟩, ⟨"mod-B", 16, 56, .combo⟩,
   ⟨"jump-if-A-nonzero", 24, 56, .literal⟩, ⟨"xor-B-C", 32, 56, .ignored⟩, ⟨"emit", 40, 56, .combo⟩,
   ⟨"shift-B", 48, 56, .combo⟩, ⟨"shift-C", 56, 56, .combo⟩]

/-- Does the row select this instruction word (R71)? -/
def OpcodeRow.selects (r : OpcodeRow) (w : Nat) : Bool := w &&& r.mask == r.pattern

/-- The mnemonic of an instruction (R75, R82). -/
def Instr.mnemonic : Instr → String
  | .shiftA _ => "shift-A"
  | .xorLiteralB _ => "xor-literal-B"
  | .modB _ => "mod-B"
  | .jumpIfANonzero _ => "jump-if-A-nonzero"
  | .xorBC _ => "xor-B-C"
  | .emit _ => "emit"
  | .shiftB _ => "shift-B"
  | .shiftC _ => "shift-C"

/-- R76's three classes of instruction words. -/
inductive EncodingClass where
  /-- (a) executes without fault in every state, but for OutputOverflow -/
  | plain
  /-- (b) faults whenever executed (R77) -/
  | reservedForm
  /-- (c) opcode 3 with an odd operand: faults exactly when A is not zero (R79) -/
  | oddJump
  deriving DecidableEq, Repr

/-- The class of an instruction (R76). -/
def Instr.encodingClass (i : Instr) : EncodingClass :=
  match i with
  | .jumpIfANonzero o => if o.toNat % 2 = 1 then .oddJump else .plain
  | _ => if i.operandKind = .combo ∧ i.operand.toNat = 7 then .reservedForm else .plain

end Sys2Proof
end

