-- ==== Sys2Proof/Machine/Fetch.lean ====
section
/-! DEFINITION. Fetch and decode of the instruction at `ip` (R92, R93), and the placing of one there. -/

namespace Sys2Proof.Machine

/-- The fault that each rejection of the decoder is (R164, R165). -/
def causeOfDecodeError : DecodeError → Cause
  | .truncated => .truncatedInstruction
  | .illegalOpcode => .illegalOpcode
  | .illegalOperand => .illegalOperand

/-- The instruction at `ip`: `MemRead(ip, 2)` decoded (R63, R92, R93), or the fault of fetch or decode, in the order
of R169. Fetch changes no state (R56). -/
def fetchInstr (s : State) : Except Cause Instr :=
  match memRead s s.ip 2 with
  | none => .error .truncatedInstruction
  | some cells =>
    match decode cells with
    | .ok (i, _) => .ok i
    | .error e => .error (causeOfDecodeError e)

/-- A state with two cells placed at `ip`, the program made long enough to hold them and no fault recorded: what the
next step's fetch needs (log entry 6). -/
def placeAtIp (s : State) (cells : Cell × Cell) : State :=
  { s with
    prog := Memory.write (Memory.write s.prog s.ip cells.1) (s.ip + 1) cells.2
    len := max s.len (s.ip + 2)
    cause := .noFault
    faultIp := 0 }

end Sys2Proof.Machine
end

