-- ==== Sys2Proof/Machine/Step.lean ====
section
/-! DEFINITION. The step (R90): halt test, fetch, decode, execute. -/

namespace Sys2Proof.Machine

/-- One step. From a faulted and from a halted state none is defined (R91, R168); from a running one the instruction at
`ip` is fetched, decoded and executed, or the fault of fetch or decode is entered (R90). -/
def step (s : State) : Host.Outcome State Fault Refusal :=
  match s.status with
  | .fault => .fault .runFaulted
  | .halt => .fault .runHalted
  | .run =>
    match fetchInstr s with
    | .ok i => exec i s
    | .error f => raise s f

/-- The state whose next step runs the instruction of a table word (R71): its two cells stand at `ip` (log entry 6). -/
def State.withFetchWord (s : State) (nbits w : Nat) : State := placeAtIp s (cellsOfWord nbits w)

end Sys2Proof.Machine
end

