-- ==== Sys2Proof/Machine/Assembler.lean ====
section
/-! DEFINITION. The assembler syntax of R82, over lines already split into mnemonic and operand (log entry 12). -/

namespace Sys2Proof.Machine

/-- An operand as it is written (R82). -/
inductive OperandText where
  /-- a bare number: a literal, or opcode 4's ignored operand -/
  | number (n : Nat)
  /-- `#0` to `#3`: a combo selector that is a number -/
  | hash (n : Nat)
  /-- `A` -/
  | regA
  /-- `B` -/
  | regB
  /-- `C` -/
  | regC
  /-- `?7`: the reserved selector -/
  | reserved
  /-- nothing written, which opcode 4 allows -/
  | omitted
  deriving DecidableEq, Repr

/-- One line of assembly: `<mnemonic> <operand>` (R82). -/
structure AsmLine where
  mnemonic : String
  operand : OperandText
  deriving DecidableEq, Repr

/-- The operand cell that an operand assembles to, by the operand kind (R82). -/
def assembleOperand : OperandKind → OperandText → Option Cell
  | .literal, .number n => if n ≤ 7 then some (BitVec.ofNat 8 n) else none
  | .ignored, .number n => if n ≤ 7 then some (BitVec.ofNat 8 n) else none
  | .ignored, .omitted => some 0
  | .combo, .hash n => if n ≤ 3 then some (BitVec.ofNat 8 n) else none
  | .combo, .regA => some 4
  | .combo, .regB => some 5
  | .combo, .regC => some 6
  | .combo, .reserved => some 7
  | _, _ => none

/-- How an operand cell is written, by the operand kind (R82). -/
def writeOperand (k : OperandKind) (sel : Cell) : OperandText :=
  match k with
  | .literal => .number sel.toNat
  | .ignored => .number sel.toNat
  | .combo =>
    match sel.toNat with
    | 4 => .regA
    | 5 => .regB
    | 6 => .regC
    | 7 => .reserved
    | n => .hash n

/-- The opcode cell and operand kind that a mnemonic names (R75, R82). -/
def opcodeOfMnemonic (m : String) : Option (Cell × OperandKind) :=
  if m = "shift-A" then some (0, .combo)
  else if m = "xor-literal-B" then some (1, .literal)
  else if m = "mod-B" then some (2, .combo)
  else if m = "jump-if-A-nonzero" then some (3, .literal)
  else if m = "xor-B-C" then some (4, .ignored)
  else if m = "emit" then some (5, .combo)
  else if m = "shift-B" then some (6, .combo)
  else if m = "shift-C" then some (7, .combo)
  else none

/-- Assemble one line to the instruction's two cells. -/
def assembleLine (l : AsmLine) : Option (List Cell) :=
  match opcodeOfMnemonic l.mnemonic with
  | none => none
  | some (opcode, kind) =>
    match assembleOperand kind l.operand with
    | none => none
    | some operand => some [opcode, operand]

/-- Assemble a program, one instruction per line; there are no labels, directives or macros (R82, R83). -/
def assemble : List AsmLine → Option (List Cell)
  | [] => some []
  | l :: rest =>
    match assembleLine l, assemble rest with
    | some cells, some more => some (cells ++ more)
    | _, _ => none

/-- The line an instruction is written as (R82). -/
def asmLine (i : Instr) : AsmLine := ⟨i.mnemonic, writeOperand i.operandKind i.operand⟩

/-- The text of an operand (R82). -/
def OperandText.text : OperandText → String
  | .number n => toString n
  | .hash n => "#" ++ toString n
  | .regA => "A"
  | .regB => "B"
  | .regC => "C"
  | .reserved => "?7"
  | .omitted => ""

/-- The text of a line (R82). -/
def AsmLine.text (l : AsmLine) : String :=
  match l.operand with
  | .omitted => l.mnemonic
  | o => l.mnemonic ++ " " ++ o.text

end Sys2Proof.Machine
end

