-- ==== Sys2Proof/Machine/Launch.lean ====
section
/-! DEFINITION. The launch, the machine's only reset (R36, R190 to R193), with its checks and its refusals. -/

namespace Sys2Proof.Machine

/-- What the host hands to a launch (R190): a list of integers and three integers. -/
structure LaunchInput where
  prog : List Int
  a0 : Int
  b0 : Int
  c0 : Int
  deriving DecidableEq, Repr

/-- Why a launch is refused (R191). A refusal is no fault of the machine: no state exists (R179). -/
inductive LaunchRefusal where
  | oddLength
  /-- the lowest index whose element is negative or above 7 -/
  | cellOutOfRange (k : Nat)
  | programTooLong
  /-- the first register whose value is outside the 64-bit signed range -/
  | registerOutOfRange (r : Reg)
  deriving DecidableEq, Repr

/-- The element is a cell of this hardware (R51, R191). -/
def isCell (v : Int) : Bool := decide (0 ≤ v ∧ v ≤ 7)

/-- The value is a 64-bit signed integer (R191, 00_scope.md section 4). -/
def isInt64 (v : Int) : Bool := decide (-2 ^ 63 ≤ v ∧ v ≤ 2 ^ 63 - 1)

/-- The lowest index, counted from `k`, of an element that is no cell. -/
def firstBadCell (k : Nat) : List Int → Option Nat
  | [] => none
  | v :: rest => if isCell v then firstBadCell (k + 1) rest else some k

/-- The first register whose launch value is out of range. -/
def firstBadReg (i : LaunchInput) : Option Reg :=
  if ¬ isInt64 i.a0 then some .A
  else if ¬ isInt64 i.b0 then some .B
  else if ¬ isInt64 i.c0 then some .C
  else none

/-- The checks of R191, in its order: the reason a launch is refused, if it is. -/
def launchRefusal (p : Params) (i : LaunchInput) : Option LaunchRefusal :=
  if i.prog.length % 2 = 1 then some .oddLength
  else
    match firstBadCell 0 i.prog with
    | some k => some (.cellOutOfRange k)
    | none =>
      if ¬ p.admits i.prog.length then some .programTooLong
      else
        match firstBadReg i with
        | some r => some (.registerOutOfRange r)
        | none => none

/-- The state a launch creates (R36). -/
def launchState (p : Params) (i : LaunchInput) : State :=
  { a := BitVec.ofInt 64 i.a0
    b := BitVec.ofInt 64 i.b0
    c := BitVec.ofInt 64 i.c0
    ip := 0
    out := []
    cause := .noFault
    faultIp := 0
    prog := Memory.load 0 (i.prog.map (BitVec.ofInt 8))
    len := i.prog.length
    params := p }

/-- A launch (R190): refused with its reason, or the launch state. It has no argument from an earlier run: nothing
survives one (R192). What a refused launch leaves of an earlier run is not said (log entry 7). -/
def launch (p : Params) (i : LaunchInput) : Except LaunchRefusal State :=
  match launchRefusal p i with
  | some r => .error r
  | none => .ok (launchState p i)

/-- What an engine is doing (R178). -/
inductive EnginePhase where
  | notLaunched
  | running
  | halted
  | faulted
  deriving DecidableEq, Repr

/-- The phase of an engine; before its first launch it has no state (R36, R178). -/
def enginePhase : Option State → EnginePhase
  | none => .notLaunched
  | some s =>
    match s.status with
    | .run => .running
    | .halt => .halted
    | .fault => .faulted

end Sys2Proof.Machine
end

