-- ==== Sys2Proof/Machine/Run.lean ====
section
/-! DEFINITION. Runs: the trace (R99), the end of a run and its result (R102, R200), under fuel (R173). -/

namespace Sys2Proof.Machine

/-- How a run stands when the fuel is used up or the run is over (R200). -/
inductive RunEnd where
  /-- the run halted; its result is `out` (R102) -/
  | halted (out : List Digit)
  /-- the run faulted; its result is the fault (R102, R200) -/
  | faulted (cause : Cause) (faultIp : Nat)
  /-- the fuel ran out first: no answer, neither a halt nor a fault (R173, log entry 11) -/
  | noAnswer
  deriving DecidableEq, Repr

/-- Apply the step while `status = RUN`, at most `fuel` times (R197), and say how the run stands then. -/
def runUpTo (fuel : Nat) (s : State) : RunEnd :=
  match s.status with
  | .halt => .halted s.out
  | .fault => .faulted s.cause s.faultIp
  | .run =>
    match fuel with
    | 0 => .noAnswer
    | n + 1 =>
      match step s with
      | .next t => runUpTo n t
      | .fault _ => .noAnswer
      | .refused _ => .noAnswer

/-- The trace from a state on, for at most `fuel` steps (R99). It includes the first state. Where the step faults, the
last element is the state that step started from with the fault recorded on it, which takes that state's place. -/
def traceUpTo (fuel : Nat) (s : State) : List State :=
  match fuel with
  | 0 => [s]
  | n + 1 =>
    match step s with
    | .next t => if t.status = .fault then [t] else s :: traceUpTo n t
    | .fault _ => [s]
    | .refused _ => [s]

/-- `execute` (R102), under fuel: launch, run, and give the result. -/
def execute (fuel : Nat) (p : Params) (i : LaunchInput) : Except LaunchRefusal RunEnd :=
  match launch p i with
  | .ok s => .ok (runUpTo fuel s)
  | .error r => .error r

end Sys2Proof.Machine
end

