-- ==== Sys2Proof/Safety.lean ====
section
/-! DEFINITION. The terms in which claims speak: what an operand denotes, which registers an instruction reads and
writes, the invariant of launched machines, reachability, the expected fault of a step, and R195's program shape. -/

namespace Sys2Proof.Machine

/-- `v` is the value of combo selector `sel` in state `s` (R74): a number below 4, or a register's current value. The
selector 7 and anything above it denote nothing. -/
def ComboDenotes (s : State) (sel : Cell) (v : Word) : Prop :=
  (sel.toNat ≤ 3 ∧ v.toNat = sel.toNat) ∨ (sel.toNat = 4 ∧ v = s.a) ∨ (sel.toNat = 5 ∧ v = s.b) ∨
    (sel.toNat = 6 ∧ v = s.c)

/-- The instruction reads the register (R25): always, or because its combo selector names it. -/
def ReadsReg (i : Instr) (r : Reg) : Prop :=
  (i.operandKind = .combo ∧
    ((r = .A ∧ i.operand = 4) ∨ (r = .B ∧ i.operand = 5) ∨ (r = .C ∧ i.operand = 6))) ∨
  match i with
  | .shiftA _ => r = .A
  | .xorLiteralB _ => r = .B
  | .modB _ => False
  | .jumpIfANonzero _ => r = .A
  | .xorBC _ => r = .B ∨ r = .C
  | .emit _ => False
  | .shiftB _ => r = .A
  | .shiftC _ => r = .A

/-- The instruction writes the register (R25). -/
def WritesReg (i : Instr) (r : Reg) : Prop :=
  match i with
  | .shiftA _ => r = .A
  | .xorLiteralB _ => r = .B
  | .modB _ => r = .B
  | .jumpIfANonzero _ => False
  | .xorBC _ => r = .B
  | .emit _ => False
  | .shiftB _ => r = .B
  | .shiftC _ => r = .C

/-- What holds of a launched machine in every state of its run. -/
structure State.Inv (s : State) : Prop where
  /-- program memory is in its canonical form (log entry 3) -/
  progCanonical : s.prog.wf
  /-- every listed cell lies inside the program and is in `0 ..= 7` (R51, R57) -/
  progInside : ∀ e ∈ s.prog, e.1 < s.len ∧ e.2.toNat ≤ 7
  /-- `L` is even (R51) -/
  lenEven : s.len % 2 = 0
  /-- the parameters are as R4 asks, and the program is not too long for them -/
  paramsValid : s.params.valid
  lenAdmitted : s.params.admits s.len
  /-- `ip` is even (R29) -/
  ipEven : s.ip % 2 = 0
  /-- `ip` is at most `max(L, 6)` (R30) -/
  ipBound : s.ip ≤ max s.len 6
  /-- `out` holds at most OUT_CAP digits (R64) -/
  outFits : ∀ cap ∈ s.params.outCap, s.out.length ≤ cap
  /-- with no fault recorded, `fault_ip` is 0 (R32) -/
  recordClear : s.cause = .noFault → s.faultIp = 0
  /-- a recorded fault is that of the instruction at `ip`, inside the program (R167) -/
  recordAtIp : s.cause ≠ .noFault → s.faultIp = s.ip ∧ s.ip < s.len
  /-- only the three reachable faults are recorded (R161, R164, R165) -/
  recordReachable : s.cause = .noFault ∨ s.cause = .reservedCombo ∨ s.cause = .misalignedJump ∨
    s.cause = .outputOverflow

/-- `t` is reached from `s` by steps. -/
inductive Reaches (s : State) : State → Prop where
  | here : Reaches s s
  | step {t u : State} (h : Reaches s t) (hs : Sys2Proof.Machine.step t = .next u) : Reaches s u

/-- `t` is the state that exactly `k` steps from `s` come to. -/
def ReachesIn : Nat → State → State → Prop
  | 0, s, t => s = t
  | k + 1, s, t => ∃ u, Sys2Proof.Machine.step s = .next u ∧ ReachesIn k u t

/-- The fault that the step from a running state raises, by the conditions of R161 in the order of R169; `noFault` if
none of them holds. -/
def expectedFault (s : State) : Cause :=
  let opcode := (s.prog.read s.ip).toNat
  let operand := (s.prog.read (s.ip + 1)).toNat
  if s.len < s.ip + 2 then .truncatedInstruction
  else if 7 < opcode then .illegalOpcode
  else if opcode ≠ 4 ∧ 7 < operand then .illegalOperand
  else if opcode ∈ [0, 2, 5, 6, 7] ∧ operand = 7 then .reservedCombo
  else if opcode = 3 ∧ s.a ≠ 0 ∧ operand % 2 = 1 then .misalignedJump
  else if opcode = 5 ∧ s.outFull then .outputOverflow
  else .noFault

/-- R195's shape of a program, read off its list of cells: exactly one opcode-3 instruction, the last one, with literal
0; at least one `shift-A` with selector 1, 2 or 3; no combo instruction with operand cell 7. -/
structure HaltingShape (prog : List Int) : Prop where
  nonempty : 2 ≤ prog.length
  oneJump : ∀ k, 2 * k + 1 < prog.length → (prog[2 * k]? = some 3 ↔ 2 * k + 2 = prog.length)
  jumpsHome : prog[prog.length - 1]? = some 0
  shifts : ∃ k, 2 * k + 1 < prog.length ∧ prog[2 * k]? = some 0 ∧
    (prog[2 * k + 1]? = some 1 ∨ prog[2 * k + 1]? = some 2 ∨ prog[2 * k + 1]? = some 3)
  noReserved : ∀ k, 2 * k + 1 < prog.length →
    (prog[2 * k]? = some 0 ∨ prog[2 * k]? = some 2 ∨ prog[2 * k]? = some 5 ∨ prog[2 * k]? = some 6 ∨
      prog[2 * k]? = some 7) → prog[2 * k + 1]? ≠ some 7

end Sys2Proof.Machine
end

