-- ==== Sys2Proof/Certificates/Slice0/Obligations.lean ====
section
/-! DEFINITION. The statements for the provers. Each docstring names the rules it formalises; where a statement rests on
a decision that the spec marks as its own (92_eei_decisions.md D<n>) or on a choice of the model (log entry <n>), the
docstring says so. -/

open Sys2Proof Sys2Proof.Machine

/-! ### The arithmetic primitives -/

/-- 00_scope.md section 5, the "Equivalently" of `asr`: bit `i` of the result is bit `i + n` of `a`, and a copy of the
sign bit where there is none. For `n >= 64` it rests on decision D4, on negative `a` on passage K2. -/
def Obligations.AsrMovesBitsAndCopiesTheSign : Prop :=
  ∀ (a : Word) (n i : Nat), n ≤ 255 → i < 64 →
    (asr a n).getLsbD i = if i + n < 64 then a.getLsbD (i + n) else a.msb

/-- 41_shift.md section 3 (R114), the table row by row: the result by the sign of A and the amount, the floor quotient
in each row and the three edge rows by their values. The amounts from 64 on rest on decision D4, negative A on passage
K2. -/
def Obligations.AsrResultsBySignAndAmount : Prop :=
  (∀ (a : Word) (n : Nat), n ≤ 255 →
    (n = 0 → asr a n = a) ∧
    (0 ≤ a.toInt → 1 ≤ n → n ≤ 62 →
      (asr a n).toInt = a.toInt.fdiv (2 ^ n) ∧ (asr a n).toInt = a.toInt.tdiv (2 ^ n) ∧
      0 ≤ (asr a n).toInt ∧ (asr a n).toInt ≤ a.toInt) ∧
    (a.toInt < 0 → 1 ≤ n → n ≤ 62 →
      (asr a n).toInt = a.toInt.fdiv (2 ^ n) ∧ a.toInt ≤ (asr a n).toInt ∧ (asr a n).toInt ≤ -1) ∧
    (0 ≤ a.toInt → 63 ≤ n → asr a n = 0) ∧
    (a.toInt < 0 → 63 ≤ n → asr a n = -1)) ∧
  (asr (-7) 1).toInt = -4 ∧
  ∀ a : Word, (a.toInt = 2 ^ 63 - 1 → (asr a 62).toInt = 1) ∧
    (a.toInt = -2 ^ 63 → (asr a 62).toInt = -2 ∧ (asr a 63).toInt = -1)

/-- 41_shift.md section 3, "Composition" (marked as derived there). -/
def Obligations.TwoShiftsAreOneShift : Prop :=
  ∀ (a : Word) (m n : Nat), m + n ≤ 255 → asr (asr a m) n = asr a (m + n)

/-- 00_scope.md section 5, the "integer divide" (R12, marked as derived): for `a >= 0` or an exact division the shift is
the truncating quotient, and for any other negative `a` it is one less. -/
def Obligations.AsrAgainstTheTruncatingQuotient : Prop :=
  ∀ (a : Word) (n : Nat), n ≤ 255 →
    (asr a n).toInt =
      if 0 ≤ a.toInt ∨ (2 ^ n : Int) ∣ a.toInt then a.toInt.tdiv (2 ^ n) else a.toInt.tdiv (2 ^ n) - 1

/-- 00_scope.md section 5, `emod`: it is the one `r` in range with `a - r` divisible by `m`, and it is the low three or
eight bits of the pattern. For negative `a` it rests on decision D3 and on passage K1. -/
def Obligations.EmodIsTheLowBitsAndUnique : Prop :=
  ∀ a : Word,
    emod a 8 = (a.extractLsb' 0 3).toNat ∧ emod a 256 = (a.extractLsb' 0 8).toNat ∧
    ∀ m ∈ [8, 256], ∀ r : Nat, (r < m ∧ (m : Int) ∣ a.toInt - r) ↔ r = emod a m

/-- 43_mod.md section R131 (marked as derived): shift and remainder pair up as floor division. -/
def Obligations.ShiftAndRemainderRebuildTheValue : Prop :=
  ∀ a : Word, a.toInt = 8 * (asr a 3).toInt + emod a 8 ∧ a.toInt = 256 * (asr a 8).toInt + emod a 256

/-- 42_xor.md section R122 (marked as derived), the laws of `xor64` on signed values. -/
def Obligations.XorLawsOnSignedValues : Prop :=
  ∀ a b c : Word,
    xor64 a b = xor64 b a ∧ xor64 (xor64 a b) c = xor64 a (xor64 b c) ∧ xor64 a 0 = a ∧ xor64 a a = 0 ∧
    (xor64 a (-1)).toInt = -a.toInt - 1 ∧
    ((xor64 a b).toInt < 0 ↔ ¬ (a.toInt < 0 ↔ b.toInt < 0)) ∧
    ∀ k : Nat, 0 ≤ a.toInt → a.toInt < 2 ^ k → 0 ≤ b.toInt → b.toInt < 2 ^ k →
      0 ≤ (xor64 a b).toInt ∧ (xor64 a b).toInt < 2 ^ k

/-! ### Encoding -/

/-- R70, R75: decode and encode agree, for every well-formed instruction whatever cells follow it. -/
def Obligations.DecodeReadsBackEveryEncoding : Prop :=
  ∀ (i : Instr) (rest : List Cell), i.WellFormed → decode (encode i ++ rest) = .ok (i, rest)

/-- R75, R93: the decoder answers an instruction only on that instruction's own cells. That no literal or combo operand
above 7 gets through, and that opcode 4's operand is not checked, is decision D1 (60_exceptions.md section 1) on cells
above 7, which a state can hold only by the model's choice (log entry 4). -/
def Obligations.DecodeAnswersOnlyEncodings : Prop :=
  ∀ (cells rest : List Cell) (i : Instr), decode cells = .ok (i, rest) →
    cells = encode i ++ rest ∧ (i.operandKind ≠ .ignored → i.WellFormed)

/-- 60_exceptions.md section 1, IllegalOpcode, IllegalOperand and TruncatedInstruction with their priority (decisions D1,
D16, D20): which cells the decoder rejects, and by which name. -/
def Obligations.DecodeRejectsByName : Prop :=
  (∀ cells : List Cell, decode cells = .error .truncated ↔ cells.length < 2) ∧
  ∀ (opcode operand : Cell) (rest : List Cell),
    (decode (opcode :: operand :: rest) = .error .illegalOpcode ↔ 7 < opcode.toNat) ∧
    (decode (opcode :: operand :: rest) = .error .illegalOperand ↔
      opcode.toNat ≤ 7 ∧ opcode.toNat ≠ 4 ∧ 7 < operand.toNat)

/-- R71, R75: every instruction word is selected by exactly one row of the opcode map, the decoder reads that row's
instruction from it, and the instruction's word is the word. -/
def Obligations.EachWordHasItsOneRow : Prop :=
  ∀ w < 64, ∃ r ∈ opcodeMap, (∀ q ∈ opcodeMap, q.selects w = true ↔ q = r) ∧
    ∃ i, decodeTableWord 8 w = some i ∧ i.mnemonic = r.mnemonic ∧ i.operandKind = r.kind ∧ instrWord i = w

/-- R53, R75: words written out from the opcode map, one per opcode, decode to the instruction they stand for. -/
def Obligations.WordsFromTheOpcodeMapDecode : Prop :=
  decode [0, 1] = .ok (.shiftA 1, []) ∧ decode [1, 3] = .ok (.xorLiteralB 3, []) ∧
  decode [2, 4] = .ok (.modB 4, []) ∧ decode [3, 0] = .ok (.jumpIfANonzero 0, []) ∧
  decode [4, 7] = .ok (.xorBC 7, []) ∧ decode [5, 4] = .ok (.emit 4, []) ∧
  decode [6, 5] = .ok (.shiftB 5, []) ∧ decode [7, 6] = .ok (.shiftC 6, [])

/-- 30_encoding.md R76 (marked as derived; conflict C11): of the 64 words 55 are plain, 5 reserved forms and 4 odd
jumps. -/
def Obligations.ClassCountsOfTheEncodings : Prop :=
  let classes := (List.range 64).filterMap fun w => (decodeTableWord 8 w).map Instr.encodingClass
  classes.count .plain = 55 ∧ classes.count .reservedForm = 5 ∧ classes.count .oddJump = 4

/-- 30_encoding.md R76 (marked as derived), what the three classes mean when executed: a plain form raises nothing (but
`emit` with `out` full), a reserved form always raises ReservedCombo, an odd jump raises MisalignedJump exactly when A
is not zero. The record's form rests on decision D6, the odd jump on decision D5. -/
def Obligations.EncodingClassDecidesTheFault : Prop :=
  ∀ (i : Instr) (s : State), i.WellFormed →
    (i.encodingClass = .plain → ¬ (i.opcode = 5 ∧ s.outFull) →
      ∃ t, exec i s = .next t ∧ t.cause = s.cause ∧ t.faultIp = s.faultIp) ∧
    (i.encodingClass = .reservedForm →
      exec i s = .next { s with cause := .reservedCombo, faultIp := s.ip }) ∧
    (i.encodingClass = .oddJump →
      exec i s = if s.a = 0 then .next { s with ip := s.ip + 2 }
        else .next { s with cause := .misalignedJump, faultIp := s.ip })

/-! ### Operands -/

/-- R95, whole: the instructions of literal kind are opcodes 1 and 3; the literal resolver gives the raw number 0 to 7,
reads no register (it has no state) and does not fault; 7 is 7 and 4 is 4. -/
def Obligations.LiteralIsTheRawNumber : Prop :=
  (∀ i : Instr, i.operandKind = .literal ↔ i.opcode = 1 ∨ i.opcode = 3) ∧
  (∀ sel : Cell, sel.toNat ≤ 7 → ∃ v, literal sel = .ok v ∧ v.toNat = sel.toNat) ∧
  literal 7 = .ok 7 ∧ literal 4 = .ok 4

/-- R74, R94: the combo resolver gives exactly the denoted value, ReservedCombo for 7 (its code is decision D6), and
IllegalOperand above 7 (decision D1). -/
def Obligations.ComboGivesTheDenotedValue : Prop :=
  ∀ (s : State) (sel : Cell),
    (∀ v, combo s sel = .ok v ↔ ComboDenotes s sel v) ∧
    (combo s sel = .error .reservedCombo ↔ sel.toNat = 7) ∧
    (combo s sel = .error .illegalOperand ↔ 7 < sel.toNat)

/-- 60_exceptions.md section 1, IllegalOperand (decisions D1, D20): an operand cell above 7 faults in every instruction
but opcode 4, before every other fault, and changes nothing but the fault record. -/
def Obligations.OperandCellAboveSevenFaults : Prop :=
  ∀ (i : Instr) (s : State), i.operandKind ≠ .ignored → 7 < i.operand.toNat →
    exec i s = .next { s with cause := .illegalOperand, faultIp := s.ip }

/-! ### The instructions: each completes, with its result and its frame -/

/-- 41_shift.md section 2, `shift-A`: A becomes the floor quotient of the old A by two to the low byte of the operand,
`ip` advances, nothing else changes; with selector 7 ReservedCombo is recorded and nothing else changes. Amounts from
64 on rest on decision D4, negative operand values on D3, the fault record on D6. -/
def Obligations.ShiftAStoresTheFloorQuotient : Prop :=
  ∀ (s : State) (sel : Cell),
    (∀ v, ComboDenotes s sel v → ∃ r : Word,
      exec (.shiftA sel) s = .next { s with a := r, ip := s.ip + 2 } ∧
      r.toInt = s.a.toInt.fdiv (2 ^ (v.toInt % 256).toNat) ∧
      (sel.toNat = 0 → r = s.a) ∧ (s.a = 0 → r = 0) ∧ (s.a = -1 → r = -1) ∧ (s.a.toInt < 0 → r.toInt < 0)) ∧
    (sel.toNat = 7 → exec (.shiftA sel) s = .next { s with cause := .reservedCombo, faultIp := s.ip })

/-- 41_shift.md section 2, `shift-B`: as `shift-A`, into B; A is not shifted. Rests on decisions D3, D4 and D6 as
`shift-A` does. -/
def Obligations.ShiftBStoresTheFloorQuotient : Prop :=
  ∀ (s : State) (sel : Cell),
    (∀ v, ComboDenotes s sel v → ∃ r : Word,
      exec (.shiftB sel) s = .next { s with b := r, ip := s.ip + 2 } ∧
      r.toInt = s.a.toInt.fdiv (2 ^ (v.toInt % 256).toNat) ∧ (sel.toNat = 0 → r = s.a)) ∧
    (sel.toNat = 7 → exec (.shiftB sel) s = .next { s with cause := .reservedCombo, faultIp := s.ip })

/-- 41_shift.md section 2, `shift-C`: as `shift-A`, into C. Rests on decisions D3, D4 and D6 as `shift-A` does. -/
def Obligations.ShiftCStoresTheFloorQuotient : Prop :=
  ∀ (s : State) (sel : Cell),
    (∀ v, ComboDenotes s sel v → ∃ r : Word,
      exec (.shiftC sel) s = .next { s with c := r, ip := s.ip + 2 } ∧
      r.toInt = s.a.toInt.fdiv (2 ^ (v.toInt % 256).toNat) ∧ (sel.toNat = 0 → r = s.a)) ∧
    (sel.toNat = 7 → exec (.shiftC sel) s = .next { s with cause := .reservedCombo, faultIp := s.ip })

/-- R120, whole: cells `(1, s)` are the instruction; B becomes B xor the raw number, `ip` advances, nothing else
changes; bits 2 to 0 are the exclusive or, bits 63 to 3 and the sign are kept, literal 0 keeps B, and doing it twice
restores B. -/
def Obligations.XorLiteralFlipsTheLowBitsOfB : Prop :=
  ∀ (s : State) (sel : Cell), sel.toNat ≤ 7 →
    decode [1, sel] = .ok (.xorLiteralB sel, []) ∧
    ∃ r : Word,
      exec (.xorLiteralB sel) s = .next { s with b := r, ip := s.ip + 2 } ∧
      r = xor64 s.b (zext64 sel) ∧
      (∀ n < 3, r.getLsbD n = (s.b.getLsbD n ^^ sel.getLsbD n)) ∧
      (∀ n, 3 ≤ n → r.getLsbD n = s.b.getLsbD n) ∧
      (r.toInt < 0 ↔ s.b.toInt < 0) ∧
      (sel = 0 → r = s.b) ∧
      exec (.xorLiteralB sel) { s with b := r, ip := s.ip + 2 } = .next { s with ip := s.ip + 4 }

/-- 42_xor.md section R121, `xor-B-C`: B becomes B xor C in all 64 bits, `ip` advances over the ignored operand cell,
nothing else changes, whatever the operand cell is (decision D14). -/
def Obligations.XorBCIgnoresItsOperand : Prop :=
  ∀ (s : State) (sel : Cell), ∃ r : Word,
    exec (.xorBC sel) s = .next { s with b := r, ip := s.ip + 2 } ∧
    (∀ n, r.getLsbD n = (s.b.getLsbD n ^^ s.c.getLsbD n)) ∧
    (r.toInt < 0 ↔ ¬ (s.b.toInt < 0 ↔ s.c.toInt < 0)) ∧ (s.b = s.c → r = 0) ∧ (s.c = 0 → r = s.b)

/-- 43_mod.md section R130, `mod-B`: B becomes the non-negative remainder of the operand by 8, `ip` advances, nothing
else changes; with selector 7 ReservedCombo is recorded and nothing else changes. Negative values rest on decision D3,
the fault record on D6. -/
def Obligations.ModBStoresTheRemainderByEight : Prop :=
  ∀ (s : State) (sel : Cell),
    (∀ v, ComboDenotes s sel v → ∃ r : Word,
      exec (.modB sel) s = .next { s with b := r, ip := s.ip + 2 } ∧
      r.toInt = v.toInt % 8 ∧ 0 ≤ r.toInt ∧ r.toInt ≤ 7) ∧
    (sel.toNat = 7 → exec (.modB sel) s = .next { s with cause := .reservedCombo, faultIp := s.ip })

/-- 44_jump.md, `jump-if-A-nonzero`: with A zero it falls through, whatever the literal; with A not zero it sets `ip` to
an even literal, and records MisalignedJump for an odd one (decisions D5, D6); nothing else changes. -/
def Obligations.JumpGoesToItsLiteralWhenANonzero : Prop :=
  ∀ (s : State) (sel : Cell), sel.toNat ≤ 7 →
    (s.a = 0 → exec (.jumpIfANonzero sel) s = .next { s with ip := s.ip + 2 }) ∧
    (s.a ≠ 0 → sel.toNat % 2 = 0 → exec (.jumpIfANonzero sel) s = .next { s with ip := sel.toNat }) ∧
    (s.a ≠ 0 → sel.toNat % 2 = 1 →
      exec (.jumpIfANonzero sel) s = .next { s with cause := .misalignedJump, faultIp := s.ip })

/-- 45_emit.md, `emit`: one digit, the non-negative remainder of the operand by 8, is appended, `ip` advances, nothing
else changes; where a finite OUT_CAP is reached OutputOverflow is recorded instead (decision D8), and with selector 7
ReservedCombo, full or not (D6, D20). -/
def Obligations.EmitAppendsOneDigit : Prop :=
  ∀ (s : State) (sel : Cell),
    (∀ v, ComboDenotes s sel v → ¬ s.outFull → ∃ d : Digit,
      exec (.emit sel) s = .next { s with out := s.out ++ [d], ip := s.ip + 2 } ∧ (d.val : Int) = v.toInt % 8) ∧
    (∀ v, ComboDenotes s sel v → s.outFull →
      exec (.emit sel) s = .next { s with cause := .outputOverflow, faultIp := s.ip }) ∧
    (sel.toNat = 7 → exec (.emit sel) s = .next { s with cause := .reservedCombo, faultIp := s.ip })

/-- R28, whole: where no fault is raised, `ip` advances by exactly 2 except on a taken jump, which sets it to its
literal operand; the jump advances by 2 when A is zero. -/
def Obligations.OnlyATakenJumpDoesNotAdvanceByTwo : Prop :=
  ∀ (i : Instr) (s t : State), s.cause = .noFault → exec i s = .next t → t.cause = .noFault →
    t.ip = match i with
      | .jumpIfANonzero o => if s.a ≠ 0 then o.toNat else s.ip + 2
      | _ => s.ip + 2

/-- 10_state.md R25 (marked as derived), the column "writes", and 20_memory.md R52: A is written only by opcode 0, C
only by opcode 7, B by opcodes 1, 2, 4 and 6, `out` only by opcode 5, and the program by none. -/
def Obligations.OnlyTheListedOpcodesWrite : Prop :=
  ∀ (i : Instr) (s t : State), exec i s = .next t →
    (∀ r, t.getReg r ≠ s.getReg r → WritesReg i r) ∧ (t.out ≠ s.out → i.opcode = 5) ∧
    t.prog = s.prog ∧ t.len = s.len ∧ t.params = s.params

/-- 10_state.md R25 (marked as derived), the column "reads": a register that an instruction does not read has no
influence on anything but itself, and none at all where the instruction overwrites it. -/
def Obligations.UnreadRegistersHaveNoInfluence : Prop :=
  ∀ (i : Instr) (s t : State) (r : Reg) (v : Word), ¬ ReadsReg i r → s.cause = .noFault → exec i s = .next t →
    ∃ u, exec i (s.setReg r v) = .next u ∧ u.setReg r 0 = t.setReg r 0 ∧
      (WritesReg i r → t.cause = .noFault → u = t) ∧ (¬ WritesReg i r → u.getReg r = v)

/-! ### The step -/

/-- R90, R92, R93: from a running state the step is the execution of the instruction decoded from the two cells at
`ip`. -/
def Obligations.StepRunsTheDecodedInstruction : Prop :=
  ∀ (s : State) (i : Instr) (rest : List Cell), s.status = .run → s.ip + 2 ≤ s.len →
    decode [s.prog.read s.ip, s.prog.read (s.ip + 1)] = .ok (i, rest) → step s = exec i s

/-- The model's choice (log entries 6 and 9): a word placed by `withFetchWord` is what the very next step runs, and
the registers, `ip`, `out` and the parameters are as they were. -/
def Obligations.PlacedWordIsRunNext : Prop :=
  ∀ (s : State) (nbits w : Nat) (i : Instr), s.prog.wf → decodeTableWord nbits w = some i →
    step (s.withFetchWord nbits w) = exec i (s.withFetchWord nbits w) ∧
    (∀ r, (s.withFetchWord nbits w).getReg r = s.getReg r) ∧ (s.withFetchWord nbits w).ip = s.ip ∧
    (s.withFetchWord nbits w).out = s.out ∧ (s.withFetchWord nbits w).params = s.params ∧
    ∀ k, k ≠ s.ip → k ≠ s.ip + 1 → (s.withFetchWord nbits w).prog.read k = s.prog.read k

/-- R90, 40_step_fetch_decode.md R91, 60_exceptions.md R168 (decision D6), log entry 5: a running state has exactly one
next state, a halted and a faulted one have none. -/
def Obligations.ExactlyTheRunningStatesStep : Prop :=
  ∀ s : State,
    (s.cause = .noFault → s.ip < s.len → ∃ t, step s = .next t) ∧
    (s.cause = .noFault → s.len ≤ s.ip → step s = .fault .runHalted) ∧
    (s.cause ≠ .noFault → step s = .fault .runFaulted)

/-- 60_exceptions.md sections 1 and 2, R160 and R167 (decision D6): a step that raises a fault changes the fault record
and nothing else, and the record names the instruction. -/
def Obligations.FaultEntryChangesOnlyTheRecord : Prop :=
  ∀ s t : State, step s = .next t → t.cause ≠ .noFault →
    t = { s with cause := t.cause, faultIp := s.ip } ∧ t.status = .fault ∧ step t = .fault .runFaulted

/-- 60_exceptions.md R161 and R169 (decisions D1, D5, D6, D8, D16, D20): the step from a running state raises exactly the
first fault in the order of priority whose condition holds, and none where no condition holds. -/
def Obligations.StepRaisesTheFirstFaultInPriority : Prop :=
  ∀ s : State, s.cause = .noFault → s.ip < s.len → ∃ t, step s = .next t ∧ t.cause = expectedFault s

/-! ### Invariants -/

/-- 10_state.md R29, R30, R31, R32, R36 and log entry 1 (the model's choice of launch): the state after reset meets the
invariant of launched machines. -/
def Obligations.ResetMeetsTheInvariant : Prop := State.reset.Inv

/-- 70_reset_and_hazards.md R190, R191 and 10_state.md R36 (decision D11): every launch that is not refused meets the
invariant. -/
def Obligations.LaunchMeetsTheInvariant : Prop :=
  ∀ (p : Params) (i : LaunchInput) (s : State), p.valid → launch p i = .ok s → s.Inv

/-- 10_state.md R29, R30, R31, R32 and 20_memory.md R61, R63: every step, from any state that meets the invariant, run by
a launch or not, keeps it. -/
def Obligations.EveryStepKeepsTheInvariant : Prop :=
  ∀ s t : State, s.Inv → step s = .next t → t.Inv

/-- 10_state.md R29 and R30, 60_exceptions.md R161 (column "reachable"), 20_memory.md R63: in every state of every run of
a launched machine `ip` is even, bounded and fits a finite IP_W, and no IllegalOpcode, IllegalOperand or
TruncatedInstruction is ever recorded. It rests on decisions D1 (a launch refuses cells above 7, and the two decode
faults), D5 (an odd taken jump faults), D7 (IP_W and the bound on the length) and D16 (TruncatedInstruction). -/
def Obligations.NoRunReachesADecodeFault : Prop :=
  ∀ (p : Params) (i : LaunchInput) (s t : State), p.valid → launch p i = .ok s → Reaches s t →
    t.ip % 2 = 0 ∧ t.ip ≤ max t.len 6 ∧ (∀ w ∈ p.ipWidth, t.ip < 2 ^ w) ∧
    t.cause ≠ .illegalOpcode ∧ t.cause ≠ .illegalOperand ∧ t.cause ≠ .truncatedInstruction

/-- 10_state.md R31 and 20_memory.md R61, R64: along a run `out` only grows, by at most one digit a step, and the program
and the parameters never change. -/
def Obligations.OutputGrowsAndProgramStays : Prop :=
  (∀ s t : State, Reaches s t → s.out <+: t.out ∧ t.prog = s.prog ∧ t.len = s.len ∧ t.params = s.params) ∧
  ∀ s t : State, step s = .next t → t.out = s.out ∨ ∃ d, t.out = s.out ++ [d]

/-- 41_shift.md `shift-A` (corner cases), 70_reset_and_hazards.md R193: along a run a negative A stays negative, and a
non-negative A stays non-negative and never grows. -/
def Obligations.SignOfANeverChanges : Prop :=
  ∀ s t : State, Reaches s t →
    (s.a.toInt < 0 → t.a.toInt < 0 ∧ s.a.toInt ≤ t.a.toInt) ∧
    (0 ≤ s.a.toInt → 0 ≤ t.a.toInt ∧ t.a.toInt ≤ s.a.toInt)

/-! ### Runs -/

/-- 40_step_fetch_decode.md R101, 44_jump.md R140: a taken jump to its own index maps the state to itself, so such a run
never halts and never faults, whatever the fuel. -/
def Obligations.SelfJumpRunsForever : Prop :=
  ∀ s : State, s.cause = .noFault → s.ip + 2 ≤ s.len → s.ip % 2 = 0 → s.ip ≤ 7 → s.a ≠ 0 →
    s.prog.read s.ip = 3 → (s.prog.read (s.ip + 1)).toNat = s.ip → step s = .next s ∧ ∀ n, runUpTo n s = .noAnswer

/-- 44_jump.md R142 (marked as derived): a taken jump to an even index at or above L is no fault and halts the run
there, with the registers and `out` as they were. -/
def Obligations.JumpOutOfTheProgramHalts : Prop :=
  ∀ s : State, s.cause = .noFault → s.ip + 2 ≤ s.len → s.a ≠ 0 → s.prog.read s.ip = 3 →
    (s.prog.read (s.ip + 1)).toNat ≤ 7 → (s.prog.read (s.ip + 1)).toNat % 2 = 0 →
    s.len ≤ (s.prog.read (s.ip + 1)).toNat →
    step s = .next { s with ip := (s.prog.read (s.ip + 1)).toNat } ∧
    ∀ n, runUpTo (n + 1) s = .halted s.out

/-- 60_exceptions.md R173, 40_step_fetch_decode.md R100 and log entry 11: an answer given under some fuel is the answer
under every larger fuel. -/
def Obligations.MoreFuelGivesTheSameAnswer : Prop :=
  ∀ (n m : Nat) (s : State), runUpTo n s ≠ .noAnswer → runUpTo (n + m) s = runUpTo n s

/-- 40_step_fetch_decode.md R99, R102 (decisions D6, D10; fuel is log entry 11) and 70_reset_and_hazards.md R200: each
element of the trace is the next state of the step from the one before it, but for a faulted last one: that is the next
state of the step from the state it stands in for. The trace ends, in a state reached from the first, in a halted state
with the run's output, or in a faulted state with the run's fault, or, out of fuel after `n` steps, in a running state
with `n + 1` states; it starts with the first state unless the very first step faults. -/
def Obligations.TraceEndsAsTheRunEnds : Prop :=
  ∀ (n : Nat) (s : State), ∃ u, (traceUpTo n s).getLast? = some u ∧ Reaches s u ∧
    (match runUpTo n s with
      | .halted o => u.status = .halt ∧ u.out = o
      | .faulted c k => u.status = .fault ∧ u.cause = c ∧ u.faultIp = k
      | .noAnswer => u.status = .run ∧ (traceUpTo n s).length = n + 1) ∧
    ((traceUpTo n s).head? = some s ∨ traceUpTo n s = [u] ∧ u.status = .fault ∧ step s = .next u) ∧
    ∀ (k : Nat) (x y : State), (traceUpTo n s)[k]? = some x → (traceUpTo n s)[k + 1]? = some y →
      (y.status ≠ .fault ∧ step x = .next y) ∨
      (k + 2 = (traceUpTo n s).length ∧ y.status = .fault ∧
        ∃ z, z.status = .run ∧ step x = .next z ∧ step z = .next y)

/-- 70_reset_and_hazards.md R195 (marked as derived): a launch with `a0 >= 0` of a program of R195's shape, on a machine
with OUT_CAP unbounded, halts without fault, within `a0 + 1` passes through the program. -/
def Obligations.ProgramsOfTheShapeHalt : Prop :=
  ∀ (p : Params) (i : LaunchInput) (s : State), launch p i = .ok s → p.outCap = none → 0 ≤ i.a0 →
    HaltingShape i.prog →
    ∃ o, runUpTo ((i.a0.toNat + 1) * (i.prog.length / 2)) s = .halted o

/-! ### Launch -/

/-- 70_reset_and_hazards.md R191 (decisions D1, D11): which launches are refused, and with which reason, in the order of
the checks. -/
def Obligations.LaunchRefusalsInOrder : Prop :=
  ∀ (p : Params) (i : LaunchInput),
    (launch p i = .error .oddLength ↔ i.prog.length % 2 = 1) ∧
    (∀ k, launch p i = .error (.cellOutOfRange k) ↔
      i.prog.length % 2 = 0 ∧ (∃ v, i.prog[k]? = some v ∧ ¬ isCell v) ∧
      ∀ j < k, ∀ v, i.prog[j]? = some v → isCell v) ∧
    (launch p i = .error .programTooLong ↔
      i.prog.length % 2 = 0 ∧ (∀ v ∈ i.prog, isCell v) ∧ ¬ p.admits i.prog.length) ∧
    (∀ r, launch p i = .error (.registerOutOfRange r) ↔
      i.prog.length % 2 = 0 ∧ (∀ v ∈ i.prog, isCell v) ∧ p.admits i.prog.length ∧
      match r with
      | .A => ¬ isInt64 i.a0
      | .B => isInt64 i.a0 ∧ ¬ isInt64 i.b0
      | .C => isInt64 i.a0 ∧ isInt64 i.b0 ∧ ¬ isInt64 i.c0)

/-- 10_state.md R36, 70_reset_and_hazards.md R190 (decisions D6, D11): a launch that passes the checks creates the state
of R36's table, with the host's program in program memory. -/
def Obligations.LaunchCreatesTheTabledState : Prop :=
  ∀ (p : Params) (i : LaunchInput),
    i.prog.length % 2 = 0 → (∀ v ∈ i.prog, isCell v) → p.admits i.prog.length →
    isInt64 i.a0 → isInt64 i.b0 → isInt64 i.c0 →
    ∃ s, launch p i = .ok s ∧ s.a.toInt = i.a0 ∧ s.b.toInt = i.b0 ∧ s.c.toInt = i.c0 ∧ s.ip = 0 ∧ s.out = [] ∧
      s.status = (if 0 < i.prog.length then .run else .halt) ∧ s.cause = .noFault ∧ s.faultIp = 0 ∧
      s.len = i.prog.length ∧ s.params = p ∧ ∀ k v, i.prog[k]? = some v → ((s.prog.read k).toNat : Int) = v

/-- The model's choice (log entries 1 and 2): the state after reset is the launch of the empty program with zero
registers on an implementation without bounds, and it is halted. -/
def Obligations.ResetIsTheEmptyLaunch : Prop :=
  launch { ipWidth := none, outCap := none } { prog := [], a0 := 0, b0 := 0, c0 := 0 } = .ok State.reset ∧
  State.reset.status = .halt

/-! ### Assembler syntax -/

/-- 30_encoding.md R82 (decision D13; log entry 12): the line an instruction is written as assembles to its two cells,
and so does a whole program; opcode 4's operand may be omitted, then it is 0. -/
def Obligations.AssemblyReadsBackTheInstruction : Prop :=
  (∀ i : Instr, i.WellFormed → assembleLine (asmLine i) = some (encode i)) ∧
  (∀ is : List Instr, (∀ i ∈ is, i.WellFormed) → assemble (is.map asmLine) = some (is.flatMap encode)) ∧
  assembleLine ⟨"xor-B-C", .omitted⟩ = some (encode (.xorBC 0))

/-! ### What the host observes -/

/-- 10_state.md R32 and 60_exceptions.md R161 (decision D6): the codes of `status` and `cause`, and the `status` that the
host reads in every state: 2 where a cause is recorded, else 1 where `ip` is at or above L, else 0. -/
def Obligations.CodesOfStatusAndCause : Prop :=
  Status.code .run = 0 ∧ Status.code .halt = 1 ∧ Status.code .fault = 2 ∧
  Cause.code .noFault = 0 ∧ Cause.code .reservedCombo = 1 ∧ Cause.code .misalignedJump = 2 ∧
  Cause.code .illegalOpcode = 3 ∧ Cause.code .illegalOperand = 4 ∧ Cause.code .truncatedInstruction = 5 ∧
  Cause.code .outputOverflow = 6 ∧
  ∀ s : State, s.status.code = if s.cause.code ≠ 0 then 2 else if s.len ≤ s.ip then 1 else 0

/-- 40_step_fetch_decode.md R102 and 70_reset_and_hazards.md R190, R200 (decisions D6, D11; fuel is log entry 11):
`execute` is refused exactly as the launch is; of a launched machine it gives `out` of the halted state, or the fault of
the faulted state, that the run comes to within the fuel, and no answer where the run is still running after it. -/
def Obligations.ExecuteGivesTheEndOfTheLaunchedRun : Prop :=
  ∀ (n : Nat) (p : Params) (i : LaunchInput),
    (∀ r, execute n p i = .error r ↔ launch p i = .error r) ∧
    ∀ s, launch p i = .ok s →
      (∀ o, execute n p i = .ok (.halted o) ↔ ∃ k ≤ n, ∃ u, ReachesIn k s u ∧ u.status = .halt ∧ u.out = o) ∧
      (∀ c f, execute n p i = .ok (.faulted c f) ↔
        ∃ k ≤ n, ∃ u, ReachesIn k s u ∧ u.status = .fault ∧ u.cause = c ∧ u.faultIp = f) ∧
      (execute n p i = .ok .noAnswer ↔ ∃ u, ReachesIn n s u ∧ u.status = .run)
end

