-- ==== Sys2Proof/Laws/Decode.lean ====
section
/-! SUPPORT. What the decoder answers, said once. -/

namespace Sys2Proof

/-- An opcode cell and an operand cell select exactly the instruction that has them (R75). -/
theorem instrOfOpcode_eq_some {opcode operand : Cell} {i : Instr} :
    instrOfOpcode opcode operand = some i ↔ i.opcode = opcode ∧ i.operand = operand := by
  constructor
  · intro h
    unfold instrOfOpcode at h
    split at h <;> rename_i heq <;> cases h <;>
      exact ⟨BitVec.eq_of_toNat_eq (by rw [heq]; rfl), rfl⟩
  · rintro ⟨rfl, rfl⟩
    cases i <;> rfl

/-- No instruction is selected by an opcode cell above 7 alone (R164). -/
theorem instrOfOpcode_eq_none {opcode operand : Cell} : instrOfOpcode opcode operand = none ↔ 7 < opcode.toNat := by
  unfold instrOfOpcode
  split <;> rename_i h <;> simp [h]
  simp only [imp_false] at *
  omega

/-- The operand kind is the opcode's: opcode 4 ignores its operand (R72). -/
theorem operandKind_eq_ignored {i : Instr} : i.operandKind = .ignored ↔ i.opcode = 4 := by
  cases i <;> simp [Instr.operandKind, Instr.opcode]

/-- The decoder on a pair of cells, whole. -/
theorem decodePair_cases (opcode operand : Cell) :
    (7 < opcode.toNat ∧ decodePair opcode operand = .error .illegalOpcode) ∨
      ∃ i : Instr, i.opcode = opcode ∧ i.operand = operand ∧ opcode.toNat ≤ 7 ∧
        ((opcode ≠ 4 ∧ 7 < operand.toNat ∧ decodePair opcode operand = .error .illegalOperand) ∨
          ((opcode = 4 ∨ operand.toNat ≤ 7) ∧ decodePair opcode operand = .ok i)) := by
  unfold decodePair
  cases h : instrOfOpcode opcode operand with
  | none => exact .inl ⟨instrOfOpcode_eq_none.1 h, rfl⟩
  | some i =>
    obtain ⟨h1, h2⟩ := instrOfOpcode_eq_some.1 h
    have h7 : ¬ 7 < opcode.toNat := fun h' => by simp [instrOfOpcode_eq_none.2 h'] at h
    refine .inr ⟨i, h1, h2, by omega, ?_⟩
    simp only [ne_eq, operandKind_eq_ignored, h1]
    by_cases hb : ¬ opcode = 4 ∧ 7 < operand.toNat
    · exact .inl ⟨hb.1, hb.2, if_pos hb⟩
    · refine .inr ⟨?_, if_neg hb⟩
      by_cases h4 : opcode = 4
      · exact .inl h4
      · exact .inr (by by_contra hc; exact hb ⟨h4, by omega⟩)

theorem decode_cons_cons (opcode operand : Cell) (rest : List Cell) :
    decode (opcode :: operand :: rest) =
      match decodePair opcode operand with
      | .ok i => .ok (i, rest)
      | .error e => .error e := rfl

end Sys2Proof
end

