-- ==== Sys2Proof/Laws/Memory.lean ====
section
/-! SUPPORT. The laws of the program memory: reading back, leaving the rest alone, keeping the canonical form. -/

namespace Sys2Proof.Machine

/-- A memory whose entries all stand at other indices reads as unlisted. -/
theorem Memory.read_unlisted {m : Memory} {k : Nat} (h : ∀ e ∈ m, e.1 ≠ k) : m.read k = unlistedCell := by
  induction m with
  | nil => rfl
  | cons e rest ih =>
    obtain ⟨j, v⟩ := e
    have hj : j ≠ k := h (j, v) (by simp)
    simp only [Memory.read, if_neg hj]
    exact ih fun e he => h e (by simp [he])

/-- A cell read is one of the listed ones, or what an unlisted index reads as. -/
theorem Memory.read_mem (m : Memory) (k : Nat) : m.read k = unlistedCell ∨ (k, m.read k) ∈ m := by
  induction m with
  | nil => exact .inl rfl
  | cons e rest ih =>
    obtain ⟨j, v⟩ := e
    by_cases hj : j = k
    · subst hj; simp [Memory.read]
    · simp only [Memory.read, if_neg hj, List.mem_cons]
      exact ih.imp id .inr

theorem Memory.entry_mem {k : Nat} {v : Cell} {m : Memory} {e : Host.Cell} (h : e ∈ Memory.entry k v m) :
    e = (k, v) ∨ e ∈ m := by
  unfold Memory.entry at h
  split at h
  · exact .inr h
  · simpa using h

/-- Reading an entry put in front of a memory that lists nothing at its index. -/
theorem Memory.read_entry_same {k : Nat} {v : Cell} {m : Memory} (h : ∀ e ∈ m, e.1 ≠ k) :
    Memory.read (Memory.entry k v m) k = v := by
  unfold Memory.entry
  split
  · rename_i hv; rw [hv]; exact Memory.read_unlisted h
  · simp [Memory.read]

theorem Memory.read_entry_other {k j : Nat} (v : Cell) (m : Memory) (h : j ≠ k) :
    Memory.read (Memory.entry k v m) j = Memory.read m j := by
  unfold Memory.entry
  split
  · rfl
  · simp [Memory.read, Ne.symm h]

/-- An entry in front of larger indices keeps the canonical form. -/
theorem Memory.entry_wf {k : Nat} {v : Cell} {m : Memory} (hm : m.wf) (h : ∀ e ∈ m, k < e.1) :
    Memory.wf (Memory.entry k v m) := by
  unfold Memory.entry
  split
  · exact hm
  · rename_i hv
    exact ⟨List.pairwise_cons.2 ⟨fun e he => h e he, hm.1⟩, by simpa [hv] using hm.2⟩

/-- What a write lists: the cell written, or entries listed before. -/
theorem Memory.write_mem {m : Memory} {k : Nat} {v : Cell} {e : Host.Cell} (h : e ∈ m.write k v) :
    e = (k, v) ∨ e ∈ m := by
  induction m with
  | nil => simpa using Memory.entry_mem h
  | cons d rest ih =>
    obtain ⟨j, w⟩ := d
    simp only [Memory.write] at h
    split at h
    · exact Memory.entry_mem h
    · split at h
      · exact (Memory.entry_mem h).imp id fun h' => by simp [h']
      · rcases List.mem_cons.1 h with rfl | h'
        · simp
        · exact (ih h').imp id fun h'' => by simp [h'']

/-- A write keeps the canonical form. -/
theorem Memory.write_wf {m : Memory} (k : Nat) (v : Cell) (h : m.wf) : Memory.wf (m.write k v) := by
  induction m with
  | nil => exact Memory.entry_wf h (by simp)
  | cons d rest ih =>
    obtain ⟨j, w⟩ := d
    obtain ⟨hp, hv⟩ := h
    obtain ⟨hj, hrest⟩ := List.pairwise_cons.1 hp
    have hw : Memory.wf rest := ⟨hrest, fun e he => hv e (by simp [he])⟩
    simp only [Memory.write]
    split
    · rename_i hk
      refine Memory.entry_wf ⟨hp, hv⟩ fun e he => ?_
      rcases List.mem_cons.1 he with rfl | he
      · exact hk
      · exact Nat.lt_trans hk (hj e he)
    · split
      · rename_i hk; subst hk
        exact Memory.entry_wf hw hj
      · rename_i hk hk'
        refine ⟨List.pairwise_cons.2 ⟨fun e he => ?_, (ih hw).1⟩, ?_⟩
        · rcases Memory.write_mem he with rfl | he
          · show j < k; omega
          · exact hj e he
        · intro e he
          rcases List.mem_cons.1 he with rfl | he
          · exact hv _ (by simp)
          · exact (ih hw).2 e he

/-- Reading the cell written. -/
theorem Memory.read_write_same {m : Memory} (k : Nat) (v : Cell) (h : m.wf) : Memory.read (m.write k v) k = v := by
  induction m with
  | nil => exact Memory.read_entry_same (by simp)
  | cons d rest ih =>
    obtain ⟨j, w⟩ := d
    obtain ⟨hp, hv⟩ := h
    obtain ⟨hj, hrest⟩ := List.pairwise_cons.1 hp
    simp only [Memory.write]
    split
    · rename_i hk
      refine Memory.read_entry_same fun e he => ?_
      rcases List.mem_cons.1 he with rfl | he
      · show j ≠ k; omega
      · have := hj e he
        simp only at this
        omega
    · split
      · rename_i hk; subst hk
        exact Memory.read_entry_same fun e he => by have := hj e he; simp only at this; omega
      · rename_i hk hk'
        simp only [Memory.read, if_neg (Ne.symm hk')]
        exact ih ⟨hrest, fun e he => hv e (by simp [he])⟩

/-- A write leaves every other cell alone. -/
theorem Memory.read_write_other {m : Memory} {k j : Nat} (v : Cell) (h : j ≠ k) :
    Memory.read (m.write k v) j = Memory.read m j := by
  induction m with
  | nil => exact Memory.read_entry_other v [] h
  | cons d rest ih =>
    obtain ⟨i, w⟩ := d
    simp only [Memory.write]
    split
    · exact Memory.read_entry_other v _ h
    · split
      · rename_i hk; subst hk
        rw [Memory.read_entry_other v rest h]
        simp [Memory.read, Ne.symm h]
      · simp only [Memory.read, ih]

theorem Memory.load_mem {k : Nat} {cs : List Cell} {e : Host.Cell} (h : e ∈ Memory.load k cs) :
    k ≤ e.1 ∧ e.1 < k + cs.length ∧ e.2 ∈ cs := by
  induction cs generalizing k with
  | nil => cases h
  | cons v rest ih =>
    rcases Memory.entry_mem h with rfl | h
    · simp
    · have := ih h
      refine ⟨by omega, ?_, by simp [this.2.2]⟩
      simp only [List.length_cons]; omega

/-- A loaded program is in the canonical form. -/
theorem Memory.load_wf (k : Nat) (cs : List Cell) : Memory.wf (Memory.load k cs) := by
  induction cs generalizing k with
  | nil => exact ⟨List.Pairwise.nil, by simp [Memory.load]⟩
  | cons v rest ih => exact Memory.entry_wf (ih (k + 1)) fun e he => (Memory.load_mem he).1

/-- A loaded program reads, cell by cell, as the list it was loaded from. -/
theorem Memory.read_load (k : Nat) (cs : List Cell) (j : Nat) :
    Memory.read (Memory.load k cs) (k + j) = cs.getD j unlistedCell := by
  induction cs generalizing k j with
  | nil => simp [Memory.load, Memory.read]
  | cons v rest ih =>
    cases j with
    | zero =>
      refine Memory.read_entry_same fun e he => ?_
      have := (Memory.load_mem he).1
      omega
    | succ j =>
      simp only [Memory.load]
      rw [Memory.read_entry_other v _ (by omega), show k + (j + 1) = (k + 1) + j by omega, ih]
      simp

theorem Memory.slice_two (m : Memory) (k : Nat) : m.slice k 2 = [m.read k, m.read (k + 1)] := rfl

end Sys2Proof.Machine
end

