-- ==== Sys2Proof/Laws/State.lean ====
section
/-! SUPPORT. One lemma per field per update of the state, so that no proof unfolds an update. -/

namespace Sys2Proof.Machine

section setReg_A
@[simp] theorem State.setReg_A_a (s : State) (v : Word) : (s.setReg .A v).a = v := rfl
@[simp] theorem State.setReg_A_b (s : State) (v : Word) : (s.setReg .A v).b = s.b := rfl
@[simp] theorem State.setReg_A_c (s : State) (v : Word) : (s.setReg .A v).c = s.c := rfl
@[simp] theorem State.setReg_A_ip (s : State) (v : Word) : (s.setReg .A v).ip = s.ip := rfl
@[simp] theorem State.setReg_A_out (s : State) (v : Word) : (s.setReg .A v).out = s.out := rfl
@[simp] theorem State.setReg_A_cause (s : State) (v : Word) : (s.setReg .A v).cause = s.cause := rfl
@[simp] theorem State.setReg_A_faultIp (s : State) (v : Word) : (s.setReg .A v).faultIp = s.faultIp := rfl
@[simp] theorem State.setReg_A_prog (s : State) (v : Word) : (s.setReg .A v).prog = s.prog := rfl
@[simp] theorem State.setReg_A_len (s : State) (v : Word) : (s.setReg .A v).len = s.len := rfl
@[simp] theorem State.setReg_A_params (s : State) (v : Word) : (s.setReg .A v).params = s.params := rfl
end setReg_A

section setReg_B
@[simp] theorem State.setReg_B_a (s : State) (v : Word) : (s.setReg .B v).a = s.a := rfl
@[simp] theorem State.setReg_B_b (s : State) (v : Word) : (s.setReg .B v).b = v := rfl
@[simp] theorem State.setReg_B_c (s : State) (v : Word) : (s.setReg .B v).c = s.c := rfl
@[simp] theorem State.setReg_B_ip (s : State) (v : Word) : (s.setReg .B v).ip = s.ip := rfl
@[simp] theorem State.setReg_B_out (s : State) (v : Word) : (s.setReg .B v).out = s.out := rfl
@[simp] theorem State.setReg_B_cause (s : State) (v : Word) : (s.setReg .B v).cause = s.cause := rfl
@[simp] theorem State.setReg_B_faultIp (s : State) (v : Word) : (s.setReg .B v).faultIp = s.faultIp := rfl
@[simp] theorem State.setReg_B_prog (s : State) (v : Word) : (s.setReg .B v).prog = s.prog := rfl
@[simp] theorem State.setReg_B_len (s : State) (v : Word) : (s.setReg .B v).len = s.len := rfl
@[simp] theorem State.setReg_B_params (s : State) (v : Word) : (s.setReg .B v).params = s.params := rfl
end setReg_B

section setReg_C
@[simp] theorem State.setReg_C_a (s : State) (v : Word) : (s.setReg .C v).a = s.a := rfl
@[simp] theorem State.setReg_C_b (s : State) (v : Word) : (s.setReg .C v).b = s.b := rfl
@[simp] theorem State.setReg_C_c (s : State) (v : Word) : (s.setReg .C v).c = v := rfl
@[simp] theorem State.setReg_C_ip (s : State) (v : Word) : (s.setReg .C v).ip = s.ip := rfl
@[simp] theorem State.setReg_C_out (s : State) (v : Word) : (s.setReg .C v).out = s.out := rfl
@[simp] theorem State.setReg_C_cause (s : State) (v : Word) : (s.setReg .C v).cause = s.cause := rfl
@[simp] theorem State.setReg_C_faultIp (s : State) (v : Word) : (s.setReg .C v).faultIp = s.faultIp := rfl
@[simp] theorem State.setReg_C_prog (s : State) (v : Word) : (s.setReg .C v).prog = s.prog := rfl
@[simp] theorem State.setReg_C_len (s : State) (v : Word) : (s.setReg .C v).len = s.len := rfl
@[simp] theorem State.setReg_C_params (s : State) (v : Word) : (s.setReg .C v).params = s.params := rfl
end setReg_C

@[simp] theorem State.getReg_A (s : State) : s.getReg .A = s.a := rfl
@[simp] theorem State.getReg_B (s : State) : s.getReg .B = s.b := rfl
@[simp] theorem State.getReg_C (s : State) : s.getReg .C = s.c := rfl

section setIp
@[simp] theorem State.setIp_a (s : State) (k : Nat) : (s.setIp k).a = s.a := rfl
@[simp] theorem State.setIp_b (s : State) (k : Nat) : (s.setIp k).b = s.b := rfl
@[simp] theorem State.setIp_c (s : State) (k : Nat) : (s.setIp k).c = s.c := rfl
@[simp] theorem State.setIp_ip (s : State) (k : Nat) : (s.setIp k).ip = k := rfl
@[simp] theorem State.setIp_out (s : State) (k : Nat) : (s.setIp k).out = s.out := rfl
@[simp] theorem State.setIp_cause (s : State) (k : Nat) : (s.setIp k).cause = s.cause := rfl
@[simp] theorem State.setIp_faultIp (s : State) (k : Nat) : (s.setIp k).faultIp = s.faultIp := rfl
@[simp] theorem State.setIp_prog (s : State) (k : Nat) : (s.setIp k).prog = s.prog := rfl
@[simp] theorem State.setIp_len (s : State) (k : Nat) : (s.setIp k).len = s.len := rfl
@[simp] theorem State.setIp_params (s : State) (k : Nat) : (s.setIp k).params = s.params := rfl
end setIp

section advance
@[simp] theorem State.advance_a (s : State) : (s.advance).a = s.a := rfl
@[simp] theorem State.advance_b (s : State) : (s.advance).b = s.b := rfl
@[simp] theorem State.advance_c (s : State) : (s.advance).c = s.c := rfl
@[simp] theorem State.advance_ip (s : State) : (s.advance).ip = s.ip + 2 := rfl
@[simp] theorem State.advance_out (s : State) : (s.advance).out = s.out := rfl
@[simp] theorem State.advance_cause (s : State) : (s.advance).cause = s.cause := rfl
@[simp] theorem State.advance_faultIp (s : State) : (s.advance).faultIp = s.faultIp := rfl
@[simp] theorem State.advance_prog (s : State) : (s.advance).prog = s.prog := rfl
@[simp] theorem State.advance_len (s : State) : (s.advance).len = s.len := rfl
@[simp] theorem State.advance_params (s : State) : (s.advance).params = s.params := rfl
end advance

section enterFault
@[simp] theorem State.enterFault_a (s : State) (f : Cause) : (s.enterFault f).a = s.a := rfl
@[simp] theorem State.enterFault_b (s : State) (f : Cause) : (s.enterFault f).b = s.b := rfl
@[simp] theorem State.enterFault_c (s : State) (f : Cause) : (s.enterFault f).c = s.c := rfl
@[simp] theorem State.enterFault_ip (s : State) (f : Cause) : (s.enterFault f).ip = s.ip := rfl
@[simp] theorem State.enterFault_out (s : State) (f : Cause) : (s.enterFault f).out = s.out := rfl
@[simp] theorem State.enterFault_cause (s : State) (f : Cause) : (s.enterFault f).cause = f := rfl
@[simp] theorem State.enterFault_faultIp (s : State) (f : Cause) : (s.enterFault f).faultIp = s.ip := rfl
@[simp] theorem State.enterFault_prog (s : State) (f : Cause) : (s.enterFault f).prog = s.prog := rfl
@[simp] theorem State.enterFault_len (s : State) (f : Cause) : (s.enterFault f).len = s.len := rfl
@[simp] theorem State.enterFault_params (s : State) (f : Cause) : (s.enterFault f).params = s.params := rfl
end enterFault

section placeAtIp
@[simp] theorem State.placeAtIp_a (s : State) (cs : Cell × Cell) : (placeAtIp s cs).a = s.a := rfl
@[simp] theorem State.placeAtIp_b (s : State) (cs : Cell × Cell) : (placeAtIp s cs).b = s.b := rfl
@[simp] theorem State.placeAtIp_c (s : State) (cs : Cell × Cell) : (placeAtIp s cs).c = s.c := rfl
@[simp] theorem State.placeAtIp_ip (s : State) (cs : Cell × Cell) : (placeAtIp s cs).ip = s.ip := rfl
@[simp] theorem State.placeAtIp_out (s : State) (cs : Cell × Cell) : (placeAtIp s cs).out = s.out := rfl
@[simp] theorem State.placeAtIp_cause (s : State) (cs : Cell × Cell) : (placeAtIp s cs).cause = .noFault := rfl
@[simp] theorem State.placeAtIp_faultIp (s : State) (cs : Cell × Cell) : (placeAtIp s cs).faultIp = 0 := rfl
@[simp] theorem State.placeAtIp_prog (s : State) (cs : Cell × Cell) : (placeAtIp s cs).prog = Memory.write (Memory.write s.prog s.ip cs.1) (s.ip + 1) cs.2 := rfl
@[simp] theorem State.placeAtIp_len (s : State) (cs : Cell × Cell) : (placeAtIp s cs).len = max s.len (s.ip + 2) := rfl
@[simp] theorem State.placeAtIp_params (s : State) (cs : Cell × Cell) : (placeAtIp s cs).params = s.params := rfl
end placeAtIp

@[simp] theorem State.setReg_ip (s : State) (r : Reg) (v : Word) : (s.setReg r v).ip = s.ip := by cases r <;> rfl
@[simp] theorem State.setReg_out (s : State) (r : Reg) (v : Word) : (s.setReg r v).out = s.out := by cases r <;> rfl
@[simp] theorem State.setReg_cause (s : State) (r : Reg) (v : Word) : (s.setReg r v).cause = s.cause := by cases r <;> rfl
@[simp] theorem State.setReg_faultIp (s : State) (r : Reg) (v : Word) : (s.setReg r v).faultIp = s.faultIp := by cases r <;> rfl
@[simp] theorem State.setReg_prog (s : State) (r : Reg) (v : Word) : (s.setReg r v).prog = s.prog := by cases r <;> rfl
@[simp] theorem State.setReg_len (s : State) (r : Reg) (v : Word) : (s.setReg r v).len = s.len := by cases r <;> rfl
@[simp] theorem State.setReg_params (s : State) (r : Reg) (v : Word) : (s.setReg r v).params = s.params := by cases r <;> rfl

/-- Reading back the register written. -/
@[simp] theorem State.getReg_setReg_same (s : State) (r : Reg) (v : Word) : (s.setReg r v).getReg r = v := by
  cases r <;> rfl

/-- The registers are independent (R23). -/
theorem State.getReg_setReg_other (s : State) {r q : Reg} (v : Word) (h : q ≠ r) :
    (s.setReg r v).getReg q = s.getReg q := by
  cases r <;> cases q <;> first | rfl | exact absurd rfl h

/-- The status after a fault entry (R167). -/
theorem State.status_enterFault (s : State) {f : Cause} (h : f ≠ .noFault) : (s.enterFault f).status = .fault := by
  simp [State.status, h]

theorem State.status_eq_run {s : State} : s.status = .run ↔ s.cause = .noFault ∧ s.ip < s.len := by
  unfold State.status
  split
  · simp_all
  · split <;> simp_all

theorem State.status_eq_halt {s : State} : s.status = .halt ↔ s.cause = .noFault ∧ s.len ≤ s.ip := by
  unfold State.status
  split
  · simp_all
  · split <;> simp_all

theorem State.status_eq_fault {s : State} : s.status = .fault ↔ s.cause ≠ .noFault := by
  unfold State.status
  split
  · simp_all
  · split <;> simp_all

end Sys2Proof.Machine
end

