-- ==== Sys2Proof/Laws/Ops.lean ====
section
/-! SUPPORT. For each shared operation one lemma that says everything it can do, for proofs to cite. -/

namespace Sys2Proof.Machine

/-- What `asr` computes, over the integers: its result is always in range (R13). -/
theorem asr_toInt_ediv (a : Word) (n : Nat) : (asr a n).toInt = a.toInt / (2 ^ n : Nat) := by
  unfold asr
  rw [Int.fdiv_eq_ediv_of_nonneg _ (by positivity), BitVec.toInt_ofInt]
  have hlo := BitVec.le_toInt a
  have hhi := BitVec.toInt_lt (x := a)
  norm_num at hlo hhi
  have hp : (1 : Int) ≤ ((2 ^ n : Nat) : Int) := by exact_mod_cast Nat.one_le_two_pow
  generalize ((2 ^ n : Nat) : Int) = p at hp
  have h1 : (-9223372036854775808 : Int) ≤ a.toInt / p := by
    rw [Int.le_ediv_iff_mul_le (by omega)]
    nlinarith
  have h2 : a.toInt / p < (9223372036854775808 : Int) := by
    rw [Int.ediv_lt_iff_lt_mul (by omega)]
    nlinarith
  refine Int.bmod_eq_of_le_mul_two ?_ ?_ <;> norm_num <;> omega

/-- What `emod` computes, over the integers. -/
theorem emod_cast (a : Word) {m : Nat} (h : 0 < m) : ((emod a m : Nat) : Int) = a.toInt % m :=
  Int.toNat_of_nonneg (Int.emod_nonneg _ (by omega))

theorem zext64_toNat (c : Cell) : (zext64 c).toNat = c.toNat := by
  have := c.isLt
  simp only [zext64, BitVec.toNat_ofNat]
  omega

/-- The literal resolver, whole. -/
theorem literal_cases (sel : Cell) :
    (sel.toNat ≤ 7 ∧ literal sel = .ok (zext64 sel)) ∨ (7 < sel.toNat ∧ literal sel = .error .illegalOperand) := by
  unfold literal
  by_cases h : sel.toNat ≤ 7
  · exact .inl ⟨h, if_pos h⟩
  · exact .inr ⟨by omega, if_neg h⟩

/-- The combo resolver, whole. -/
theorem combo_cases (s : State) (sel : Cell) :
    (sel.toNat ≤ 3 ∧ combo s sel = .ok (zext64 sel)) ∨ (sel.toNat = 4 ∧ combo s sel = .ok s.a) ∨
      (sel.toNat = 5 ∧ combo s sel = .ok s.b) ∨ (sel.toNat = 6 ∧ combo s sel = .ok s.c) ∨
      (sel.toNat = 7 ∧ combo s sel = .error .reservedCombo) ∨
      (7 < sel.toNat ∧ combo s sel = .error .illegalOperand) := by
  unfold combo
  split <;> rename_i h <;> simp [h]
  simp only [imp_false] at *
  omega

/-- The resolver answers a value, or one of its two faults. -/
theorem combo_ok_or_fault (s : State) (sel : Cell) :
    (sel.toNat ≤ 6 ∧ ∃ v, combo s sel = .ok v) ∨ (7 ≤ sel.toNat ∧ ∃ f, f ≠ .noFault ∧ combo s sel = .error f) := by
  rcases combo_cases s sel with ⟨h, e⟩ | ⟨h, e⟩ | ⟨h, e⟩ | ⟨h, e⟩ | ⟨h, e⟩ | ⟨h, e⟩ <;>
    first
    | exact .inl ⟨by omega, _, e⟩
    | exact .inr ⟨by omega, _, by decide, e⟩

/-- The accumulator is full exactly where a finite OUT_CAP is reached. -/
theorem outFull_iff {s : State} : s.outFull = true ↔ ∃ cap ∈ s.params.outCap, cap ≤ s.out.length := by
  unfold State.outFull
  cases s.params.outCap <;> simp

/-- `outFull` looks at `out` and the parameters only. -/
theorem outFull_congr {s t : State} (ho : t.out = s.out) (hp : t.params = s.params) : t.outFull = s.outFull := by
  unfold State.outFull
  rw [ho, hp]

theorem outAppend_full {s : State} (d : Digit) (h : s.outFull) : outAppend s d = none := if_pos h

theorem outAppend_room {s : State} (d : Digit) (h : ¬ s.outFull) :
    outAppend s d = some { s with out := s.out ++ [d] } := if_neg h

theorem withOperand_ok (s : State) (v : Word) (k : Word → Result) : withOperand s (.ok v) k = k v := rfl

theorem withOperand_error (s : State) (f : Cause) (k : Word → Result) :
    withOperand s (.error f) k = .next (s.enterFault f) := rfl

/-- `MemRead(ip, 2)` where both cells lie in the program (R63). -/
theorem memRead_two {s : State} (h : s.ip + 2 ≤ s.len) :
    memRead s s.ip 2 = some [s.prog.read s.ip, s.prog.read (s.ip + 1)] := if_pos h

/-- The step, whole (R90, R91, R168). -/
theorem step_cases (s : State) :
    (s.cause ≠ .noFault ∧ step s = .fault .runFaulted) ∨
      (s.cause = .noFault ∧ s.len ≤ s.ip ∧ step s = .fault .runHalted) ∨
      (s.cause = .noFault ∧ s.ip < s.len ∧ ∃ i, fetchInstr s = .ok i ∧ step s = exec i s) ∨
      (s.cause = .noFault ∧ s.ip < s.len ∧ ∃ f, fetchInstr s = .error f ∧ step s = .next (s.enterFault f)) := by
  unfold step
  cases hs : s.status with
  | fault => exact .inl ⟨State.status_eq_fault.1 hs, rfl⟩
  | halt => exact .inr (.inl ⟨(State.status_eq_halt.1 hs).1, (State.status_eq_halt.1 hs).2, rfl⟩)
  | run =>
    obtain ⟨hc, hl⟩ := State.status_eq_run.1 hs
    cases hf : fetchInstr s with
    | ok i => exact .inr (.inr (.inl ⟨hc, hl, i, rfl, rfl⟩))
    | error f => exact .inr (.inr (.inr ⟨hc, hl, f, rfl, rfl⟩))

end Sys2Proof.Machine
end

