-- ==== Sys2Proof/Laws/Exec.lean ====
section
/-! SUPPORT. For each meaning one lemma that says everything it can do, and one for all of them together. -/

namespace Sys2Proof.Machine

/-- `shiftInto`, whole (R110 to R113). -/
theorem shiftInto_cases (r : Reg) (sel : Cell) (s : State) :
    (∃ v, combo s sel = .ok v ∧ shiftInto r sel s = .next (s.setReg r (shiftResult s.a v)).advance) ∨
      (∃ f, f ≠ .noFault ∧ combo s sel = .error f ∧ shiftInto r sel s = .next (s.enterFault f)) := by
  unfold shiftInto
  rcases combo_ok_or_fault s sel with ⟨-, v, h⟩ | ⟨-, f, hf, h⟩ <;> rw [h]
  · exact .inl ⟨v, rfl, rfl⟩
  · exact .inr ⟨f, hf, rfl, rfl⟩

/-- `mod-B`, whole (R130). -/
theorem execModB_cases (sel : Cell) (s : State) :
    (∃ v, combo s sel = .ok v ∧ execModB sel s = .next (s.setReg .B (BitVec.ofNat 64 (emod v 8))).advance) ∨
      (∃ f, f ≠ .noFault ∧ combo s sel = .error f ∧ execModB sel s = .next (s.enterFault f)) := by
  unfold execModB
  rcases combo_ok_or_fault s sel with ⟨-, v, h⟩ | ⟨-, f, hf, h⟩ <;> rw [h]
  · exact .inl ⟨v, rfl, rfl⟩
  · exact .inr ⟨f, hf, rfl, rfl⟩

/-- `emit`, whole (R150). -/
theorem execEmit_cases (sel : Cell) (s : State) :
    (∃ v, combo s sel = .ok v ∧ ¬ s.outFull ∧
      execEmit sel s = .next (State.advance { s with out := s.out ++ [digitOf v] })) ∨
      (∃ v, combo s sel = .ok v ∧ s.outFull ∧ execEmit sel s = .next (s.enterFault .outputOverflow)) ∨
      (∃ f, f ≠ .noFault ∧ combo s sel = .error f ∧ execEmit sel s = .next (s.enterFault f)) := by
  unfold execEmit
  rcases combo_ok_or_fault s sel with ⟨-, v, h⟩ | ⟨-, f, hf, h⟩ <;> rw [h]
  · by_cases hf : s.outFull
    · refine .inr (.inl ⟨v, rfl, hf, ?_⟩)
      rw [withOperand_ok, outAppend_full _ hf]
      rfl
    · refine .inl ⟨v, rfl, hf, ?_⟩
      rw [withOperand_ok, outAppend_room _ hf]
  · exact .inr (.inr ⟨f, hf, rfl, rfl⟩)

/-- `xor-literal-B`, whole (R120). -/
theorem execXorLiteralB_cases (sel : Cell) (s : State) :
    (sel.toNat ≤ 7 ∧ execXorLiteralB sel s = .next (s.setReg .B (xor64 s.b (zext64 sel))).advance) ∨
      (7 < sel.toNat ∧ execXorLiteralB sel s = .next (s.enterFault .illegalOperand)) := by
  unfold execXorLiteralB
  rcases literal_cases sel with ⟨hs, h⟩ | ⟨hs, h⟩ <;> rw [h]
  · exact .inl ⟨hs, rfl⟩
  · exact .inr ⟨hs, rfl⟩

/-- `xor-B-C`, whole (R121). -/
theorem execXorBC_eq (sel : Cell) (s : State) : execXorBC sel s = .next (s.setReg .B (xor64 s.b s.c)).advance := rfl

/-- `jump-if-A-nonzero`, whole (R140, R141). -/
theorem execJumpIfANonzero_cases (sel : Cell) (s : State) :
    (sel.toNat ≤ 7 ∧ s.a = 0 ∧ execJumpIfANonzero sel s = .next s.advance) ∨
      (sel.toNat ≤ 7 ∧ s.a ≠ 0 ∧ sel.toNat % 2 = 0 ∧ execJumpIfANonzero sel s = .next (s.setIp sel.toNat)) ∨
      (sel.toNat ≤ 7 ∧ s.a ≠ 0 ∧ sel.toNat % 2 = 1 ∧
        execJumpIfANonzero sel s = .next (s.enterFault .misalignedJump)) ∨
      (7 < sel.toNat ∧ execJumpIfANonzero sel s = .next (s.enterFault .illegalOperand)) := by
  unfold execJumpIfANonzero
  rcases literal_cases sel with ⟨hs, h⟩ | ⟨hs, h⟩ <;> rw [h]
  · rw [withOperand_ok, zext64_toNat, State.getReg_A]
    by_cases ha : s.a = 0
    · exact .inl ⟨hs, ha, if_neg (not_not.2 ha)⟩
    · rw [if_pos ha]
      by_cases ho : sel.toNat % 2 = 1
      · exact .inr (.inr (.inl ⟨hs, ha, ho, if_pos ho⟩))
      · exact .inr (.inl ⟨hs, ha, by omega, if_neg ho⟩)
  · exact .inr (.inr (.inr ⟨hs, rfl⟩))

/-- What an instruction can do, whole: record a fault and nothing else, write one register and advance, append a digit
and advance, set `ip` to an even literal, or only advance (R25, R90, R160). -/
theorem exec_cases (i : Instr) (s : State) :
    (∃ f, f ≠ .noFault ∧ exec i s = .next (s.enterFault f)) ∨
      (∃ r v, exec i s = .next (s.setReg r v).advance) ∨
      (∃ d, ¬ s.outFull ∧ exec i s = .next (State.advance { s with out := s.out ++ [d] })) ∨
      (∃ k, k % 2 = 0 ∧ k ≤ 7 ∧ exec i s = .next (s.setIp k)) ∨
      exec i s = .next s.advance := by
  have hshift : ∀ (r : Reg) (o : Cell), exec i s = shiftInto r o s →
      (∃ f, f ≠ .noFault ∧ exec i s = .next (s.enterFault f)) ∨ (∃ r v, exec i s = .next (s.setReg r v).advance) := by
    intro r o h
    rcases shiftInto_cases r o s with ⟨v, -, e⟩ | ⟨f, hf, -, e⟩
    · exact .inr ⟨_, _, h.trans e⟩
    · exact .inl ⟨f, hf, h.trans e⟩
  cases i with
  | shiftA o => exact (hshift .A o rfl).imp id .inl
  | shiftB o => exact (hshift .B o rfl).imp id .inl
  | shiftC o => exact (hshift .C o rfl).imp id .inl
  | modB o =>
    rcases execModB_cases o s with ⟨v, -, e⟩ | ⟨f, hf, -, e⟩
    · exact .inr (.inl ⟨_, _, e⟩)
    · exact .inl ⟨f, hf, e⟩
  | xorLiteralB o =>
    rcases execXorLiteralB_cases o s with ⟨-, e⟩ | ⟨-, e⟩
    · exact .inr (.inl ⟨_, _, e⟩)
    · exact .inl ⟨_, by decide, e⟩
  | xorBC o => exact .inr (.inl ⟨_, _, execXorBC_eq o s⟩)
  | jumpIfANonzero o =>
    rcases execJumpIfANonzero_cases o s with ⟨-, -, e⟩ | ⟨ho, -, he, e⟩ | ⟨-, -, -, e⟩ | ⟨-, e⟩
    · exact .inr (.inr (.inr (.inr e)))
    · exact .inr (.inr (.inr (.inl ⟨_, he, ho, e⟩)))
    · exact .inl ⟨_, by decide, e⟩
    · exact .inl ⟨_, by decide, e⟩
  | emit o =>
    rcases execEmit_cases o s with ⟨v, -, hf, e⟩ | ⟨v, -, -, e⟩ | ⟨f, hf, -, e⟩
    · exact .inr (.inr (.inl ⟨_, hf, e⟩))
    · exact .inl ⟨_, by decide, e⟩
    · exact .inl ⟨f, hf, e⟩

end Sys2Proof.Machine
end

