-- ==== Sys2Proof/Laws/PerInstr.lean ====
section
/-! SUPPORT. Statements made per instruction, one lemma for each constructor. -/

namespace Sys2Proof.Laws

open Sys2Proof

/-- The instruction's row of the opcode map (R75): one row has its mnemonic, that row has its operand kind and its
opcode, and, where the instruction is well formed, that row selects its instruction word (R71). -/
def TableRow.Statement (i : Instr) : Prop :=
  ∃ r ∈ opcodeMap, (∀ q ∈ opcodeMap, q.mnemonic = i.mnemonic → q = r) ∧ r.mnemonic = i.mnemonic ∧
    r.kind = i.operandKind ∧ r.pattern = 8 * i.opcode.toNat ∧ (i.WellFormed → r.selects (instrWord i) = true)

/-- A word with the row's opcode bits above a three-bit operand is selected by the mask of the opcode map. -/
theorem TableRow.selects_of_le {op n : Nat} (hop : op ≤ 7) (h : n ≤ 7) : ((8 * op + n) &&& 56) = 8 * op := by
  have h1 : ∀ op < 8, ∀ n < 8, ((8 * op + n) &&& 56) = 8 * op := by decide
  exact h1 op (by omega) n (by omega)

/-- The row of an instruction, from the facts that hold by computation. -/
theorem TableRow.of_row {i : Instr} (r : OpcodeRow) (hr : r ∈ opcodeMap)
    (hu : ∀ q ∈ opcodeMap, q.mnemonic = i.mnemonic → q = r) (hm : r.mnemonic = i.mnemonic)
    (hk : r.kind = i.operandKind) (hp : r.pattern = 8 * i.opcode.toNat) (h56 : r.mask = 56) (h7 : i.opcode.toNat ≤ 7) :
    TableRow.Statement i := by
  refine ⟨r, hr, hu, hm, hk, hp, fun hwf => ?_⟩
  simp only [OpcodeRow.selects, instrWord, h56, hp, beq_iff_eq]
  exact TableRow.selects_of_le h7 hwf

theorem TableRow.shiftA (o : Cell) : TableRow.Statement (.shiftA o) :=
  TableRow.of_row ⟨"shift-A", 0, 56, .combo⟩ (by decide) (by simp [opcodeMap, Instr.mnemonic]) rfl rfl rfl rfl
    (by simp [Instr.opcode])

theorem TableRow.xorLiteralB (o : Cell) : TableRow.Statement (.xorLiteralB o) :=
  TableRow.of_row ⟨"xor-literal-B", 8, 56, .literal⟩ (by decide) (by simp [opcodeMap, Instr.mnemonic]) rfl rfl rfl rfl
    (by simp [Instr.opcode])

theorem TableRow.modB (o : Cell) : TableRow.Statement (.modB o) :=
  TableRow.of_row ⟨"mod-B", 16, 56, .combo⟩ (by decide) (by simp [opcodeMap, Instr.mnemonic]) rfl rfl rfl rfl
    (by simp [Instr.opcode])

theorem TableRow.jumpIfANonzero (o : Cell) : TableRow.Statement (.jumpIfANonzero o) :=
  TableRow.of_row ⟨"jump-if-A-nonzero", 24, 56, .literal⟩ (by decide) (by simp [opcodeMap, Instr.mnemonic]) rfl rfl rfl rfl
    (by simp [Instr.opcode])

theorem TableRow.xorBC (o : Cell) : TableRow.Statement (.xorBC o) :=
  TableRow.of_row ⟨"xor-B-C", 32, 56, .ignored⟩ (by decide) (by simp [opcodeMap, Instr.mnemonic]) rfl rfl rfl rfl
    (by simp [Instr.opcode])

theorem TableRow.emit (o : Cell) : TableRow.Statement (.emit o) :=
  TableRow.of_row ⟨"emit", 40, 56, .combo⟩ (by decide) (by simp [opcodeMap, Instr.mnemonic]) rfl rfl rfl rfl
    (by simp [Instr.opcode])

theorem TableRow.shiftB (o : Cell) : TableRow.Statement (.shiftB o) :=
  TableRow.of_row ⟨"shift-B", 48, 56, .combo⟩ (by decide) (by simp [opcodeMap, Instr.mnemonic]) rfl rfl rfl rfl
    (by simp [Instr.opcode])

theorem TableRow.shiftC (o : Cell) : TableRow.Statement (.shiftC o) :=
  TableRow.of_row ⟨"shift-C", 56, 56, .combo⟩ (by decide) (by simp [opcodeMap, Instr.mnemonic]) rfl rfl rfl rfl
    (by simp [Instr.opcode])

end Sys2Proof.Laws
end

