-- ==== Sys2Proof/Laws/Step.lean ====
section
/-! SUPPORT. What fetch and the step can do, said once. -/

namespace Sys2Proof.Machine

/-- Fetch and decode, whole, in the order of R169. -/
theorem fetchInstr_cases (s : State) :
    (s.len < s.ip + 2 ∧ fetchInstr s = .error .truncatedInstruction) ∨
      (s.ip + 2 ≤ s.len ∧ 7 < (s.prog.read s.ip).toNat ∧ fetchInstr s = .error .illegalOpcode) ∨
      (s.ip + 2 ≤ s.len ∧ (s.prog.read s.ip).toNat ≤ 7 ∧ ∃ i : Instr, i.opcode = s.prog.read s.ip ∧
        i.operand = s.prog.read (s.ip + 1) ∧
        ((i.opcode ≠ 4 ∧ 7 < i.operand.toNat ∧ fetchInstr s = .error .illegalOperand) ∨
          ((i.opcode = 4 ∨ i.operand.toNat ≤ 7) ∧ fetchInstr s = .ok i))) := by
  unfold fetchInstr
  by_cases h : s.ip + 2 ≤ s.len
  · rw [memRead_two h]
    simp only [decode_cons_cons]
    rcases decodePair_cases (s.prog.read s.ip) (s.prog.read (s.ip + 1)) with
      ⟨h7, e⟩ | ⟨i, h1, h2, h7, ⟨h3, h4, e⟩ | ⟨h3, e⟩⟩ <;> rw [e]
    · exact .inr (.inl ⟨h, h7, rfl⟩)
    · exact .inr (.inr ⟨h, h7, i, h1, h2, .inl ⟨h1 ▸ h3, h2 ▸ h4, rfl⟩⟩)
    · exact .inr (.inr ⟨h, h7, i, h1, h2, .inr ⟨by rw [h1, h2]; exact h3, rfl⟩⟩)
  · exact .inl ⟨by omega, by rw [memRead, if_neg h]⟩

/-- What a step from a running state can do, whole: record a fault and nothing else, write one register and advance,
append a digit and advance, set `ip` to an even literal, or only advance. -/
theorem step_next_cases {s t : State} (h : step s = .next t) :
    s.cause = .noFault ∧ s.ip < s.len ∧
      ((∃ f, f ≠ .noFault ∧ t = s.enterFault f) ∨
        (∃ r v, t = (s.setReg r v).advance) ∨
        (∃ d, ¬ s.outFull ∧ t = State.advance { s with out := s.out ++ [d] }) ∨
        (∃ k, k % 2 = 0 ∧ k ≤ 7 ∧ t = s.setIp k) ∨
        t = s.advance) := by
  rcases step_cases s with ⟨-, e⟩ | ⟨-, -, e⟩ | ⟨hc, hl, i, -, e⟩ | ⟨hc, hl, f, hf, e⟩ <;> rw [e] at h
  · cases h
  · cases h
  · refine ⟨hc, hl, ?_⟩
    rcases exec_cases i s with ⟨f, hf, e⟩ | ⟨r, v, e⟩ | ⟨d, hd, e⟩ | ⟨k, h1, h2, e⟩ | e <;>
      cases h.symm.trans e
    · exact .inl ⟨f, hf, rfl⟩
    · exact .inr (.inl ⟨r, v, rfl⟩)
    · exact .inr (.inr (.inl ⟨d, hd, rfl⟩))
    · exact .inr (.inr (.inr (.inl ⟨k, h1, h2, rfl⟩)))
    · exact .inr (.inr (.inr (.inr rfl)))
  · cases h
    refine ⟨hc, hl, .inl ⟨f, ?_, rfl⟩⟩
    rintro rfl
    rcases fetchInstr_cases s with ⟨-, e⟩ | ⟨-, -, e⟩ | ⟨-, -, i, -, -, ⟨-, -, e⟩ | ⟨-, e⟩⟩ <;> cases hf.symm.trans e

/-- The step does not touch the program or the parameters (R22, R61). -/
theorem step_keeps_program {s t : State} (h : step s = .next t) :
    t.prog = s.prog ∧ t.len = s.len ∧ t.params = s.params := by
  obtain ⟨-, -, ⟨f, -, rfl⟩ | ⟨r, v, rfl⟩ | ⟨d, -, rfl⟩ | ⟨k, -, -, rfl⟩ | rfl⟩ := step_next_cases h <;> simp

end Sys2Proof.Machine
end

