-- ==== Sys2Proof/Laws/Run.lean ====
section
/-! SUPPORT. What one unit of fuel does to a run and to a trace, and reachability, said once. -/

namespace Sys2Proof.Machine

/-- A state that has a next state is running (R90). -/
theorem status_eq_run_of_step {s t : State} (h : step s = .next t) : s.status = .run :=
  State.status_eq_run.2 ⟨(step_next_cases h).1, (step_next_cases h).2.1⟩

theorem runUpTo_halt {n : Nat} {s : State} (h : s.status = .halt) : runUpTo n s = .halted s.out := by
  cases n <;> simp only [runUpTo, h]

theorem runUpTo_fault {n : Nat} {s : State} (h : s.status = .fault) : runUpTo n s = .faulted s.cause s.faultIp := by
  cases n <;> simp only [runUpTo, h]

theorem runUpTo_zero {s : State} (h : s.status = .run) : runUpTo 0 s = .noAnswer := by
  simp only [runUpTo, h]

theorem runUpTo_next {n : Nat} {s t : State} (h : step s = .next t) : runUpTo (n + 1) s = runUpTo n t := by
  simp only [runUpTo, status_eq_run_of_step h, h]

/-- Where a state has no next state the trace is that state. -/
theorem traceUpTo_stop {n : Nat} {s : State} (h : s.status ≠ .run) : traceUpTo n s = [s] := by
  cases n with
  | zero => rfl
  | succ n =>
    simp only [traceUpTo]
    split
    · rename_i t ht
      exact absurd (status_eq_run_of_step ht) h
    · rfl
    · rfl

theorem traceUpTo_next {n : Nat} {s t : State} (h : step s = .next t) :
    traceUpTo (n + 1) s = if t.status = .fault then [t] else s :: traceUpTo n t := by
  simp only [traceUpTo, h]

/-- A step in front of a run. -/
theorem Reaches.head {s t u : State} (h : Machine.step s = .next t) (hr : Reaches t u) : Reaches s u := by
  induction hr with
  | here => exact .step .here h
  | step _ hs ih => exact .step ih hs

/-- What holds of a state and is kept by every step holds of every state reached from it. -/
theorem Reaches.invariant {P : State → Prop} {s t : State} (h : Reaches s t) (hs : P s)
    (hstep : ∀ x y, P x → Machine.step x = .next y → P y) : P t := by
  induction h with
  | here => exact hs
  | step _ hs ih => exact hstep _ _ ih hs

/-- The states reached in some number of steps are the states reached. -/
theorem ReachesIn.reaches {k : Nat} {s t : State} (h : ReachesIn k s t) : Reaches s t := by
  induction k generalizing s with
  | zero => cases h; exact .here
  | succ k ih =>
    obtain ⟨u, hu, h⟩ := h
    exact .head hu (ih h)

/-- A state without a next state reaches only itself. -/
theorem ReachesIn.eq_of_stopped {k : Nat} {s t : State} (h : ReachesIn k s t) (hs : s.status ≠ .run) : t = s ∧ k = 0 := by
  cases k with
  | zero => exact ⟨h.symm, rfl⟩
  | succ k =>
    obtain ⟨u, hu, -⟩ := h
    exact absurd (status_eq_run_of_step hu) hs

/-- The first of some steps is the step. -/
theorem reachesIn_succ_of_step {k : Nat} {s t u : State} (h : step s = .next t) :
    ReachesIn (k + 1) s u ↔ ReachesIn k t u := by
  constructor
  · rintro ⟨v, hv, hr⟩
    cases h.symm.trans hv
    exact hr
  · exact fun hr => ⟨t, h, hr⟩

end Sys2Proof.Machine
end

