-- ==== Sys2Proof/Tests/Slice0.lean ====
section
/-! SUPPORT. The model's own tests: the smoke test of WellFormed, the decoding of words written out from 30_encoding.md
R75, single steps with the expected values of 95_test_vectors.md, launches (section 2.6 there), and a witness for the
hypotheses of every obligation that has some. -/

namespace Sys2Proof.Tests

open Sys2Proof Sys2Proof.Machine

/-- A running state with the given registers, with the two cells at `ip`. -/
def at_ (a b c : Int) (ip : Nat) (opcode operand : Cell) : State :=
  { a := BitVec.ofInt 64 a, b := BitVec.ofInt 64 b, c := BitVec.ofInt 64 c, ip := ip, out := [], cause := .noFault,
    faultIp := 0, prog := Memory.load ip [opcode, operand], len := ip + 2, params := ⟨none, none⟩ }

/-- The next state of an outcome. -/
def nextOf : Result → Option State
  | .next t => some t
  | .fault _ => none
  | .refused _ => none

/-- An outcome is decided to be a next state through `nextOf`. -/
theorem eq_next {r : Result} {t : State} (h : nextOf r = some t) : r = .next t := by
  cases r with
  | next u => simp only [nextOf, Option.some.injEq] at h; rw [h]
  | fault f => cases h
  | refused f => cases h

/-- A, B, C and `ip` after one step. -/
def regsAfter (s : State) : Option (Int × Int × Int × Nat) :=
  (nextOf (step s)).map fun t => (t.a.toInt, t.b.toInt, t.c.toInt, t.ip)

/-- The output after one step. -/
def outAfter (s : State) : Option (List Digit) := (nextOf (step s)).map State.out

/-- The codes of `status` and `cause`, `fault_ip` and `ip` after one step. -/
def recordAfter (s : State) : Option (BitVec 2 × BitVec 3 × Nat × Nat) :=
  (nextOf (step s)).map fun t => (t.status.code, t.cause.code, t.faultIp, t.ip)

/-! ### WellFormed -/

theorem test_wellFormed_refuses_operand_8 : ¬ (Instr.shiftA 8).WellFormed := by decide
theorem test_wellFormed_refuses_ignored_operand_8 : ¬ (Instr.xorBC 8).WellFormed := by decide
theorem test_wellFormed_accepts_operand_7 : (Instr.shiftA 7).WellFormed := by decide

/-! ### Decoding, each word written out from R75's pattern -/

theorem test_decode_shiftA : decodeTableWord 8 0b000101 = some (.shiftA 5) := by decide
theorem test_decode_xorLiteralB : decodeTableWord 8 0b001011 = some (.xorLiteralB 3) := by decide
theorem test_decode_modB : decodeTableWord 8 0b010100 = some (.modB 4) := by decide
theorem test_decode_jumpIfANonzero : decodeTableWord 8 0b011110 = some (.jumpIfANonzero 6) := by decide
theorem test_decode_xorBC : decodeTableWord 8 0b100111 = some (.xorBC 7) := by decide
theorem test_decode_emit : decodeTableWord 8 0b101001 = some (.emit 1) := by decide
theorem test_decode_shiftB : decodeTableWord 8 0b110101 = some (.shiftB 5) := by decide
theorem test_decode_shiftC : decodeTableWord 8 0b111000 = some (.shiftC 0) := by decide

/-- No row has a bit above `iw[5]`: such a word is an illegal opcode (R164). -/
theorem test_decode_refuses_opcode_8 : decodeTableWord 8 0b1000000 = none := by decide

/-- Opcode 4 does not check its operand cell, the others do (R78, R164). -/
theorem test_decode_operand_9 :
    decode [4, 9] = .ok (.xorBC 9, []) ∧ decode [1, 9] = .error .illegalOperand ∧ decode [1] = .error .truncated := by
  decide

/-! ### The primitives (95_test_vectors.md 2.1 to 2.3) -/

theorem test_asr_vectors :
    (asr (-7) 1).toInt = -4 ∧ (asr (-9) 3).toInt = -2 ∧ (asr 123456789 200).toInt = 0 ∧
    (asr (BitVec.ofInt 64 (-2 ^ 63)) 62).toInt = -2 ∧ (asr (BitVec.ofInt 64 (-2 ^ 63)) 255).toInt = -1 := by decide
theorem test_shiftAmount_vectors :
    shiftAmount 259 = 3 ∧ shiftAmount 320 = 64 ∧ shiftAmount (-1) = 255 ∧ shiftAmount (-255) = 1 := by decide
theorem test_emod_vectors : emod 364 8 = 4 ∧ emod (-9) 8 = 7 ∧ emod (-8) 8 = 0 := by decide
theorem test_xor64_vectors : xor64 3 253 = 254 ∧ (xor64 (-1) 7).toInt = -8 ∧ (xor64 0 (-1)).toInt = -1 := by decide

/-! ### One step each (95_test_vectors.md section 2) -/

theorem test_shiftA_reads_old_A : regsAfter (at_ 1027 0 0 0 0 4) = some (128, 0, 0, 2) := by decide
theorem test_shiftA_over_width : regsAfter (at_ 1099511627846 0 0 0 0 4) = some (0, 0, 0, 2) := by decide
theorem test_shiftB_floor : regsAfter (at_ (-20) 2 66 0 6 5) = some (-20, -5, 66, 2) := by decide
theorem test_shiftB_copies : regsAfter (at_ 77 5 9 0 6 0) = some (77, 77, 9, 2) := by decide
theorem test_shiftC_by_B : regsAfter (at_ 2024 3 0 4 7 5) = some (2024, 3, 253, 6) := by decide
theorem test_shiftC_over_width : regsAfter (at_ (-20) (-5) 66 2 7 6) = some (-20, -5, -1, 4) := by decide
theorem test_xorLiteralB_four_is_a_number : regsAfter (at_ 99 0 0 0 1 4) = some (99, 4, 0, 2) := by decide
theorem test_xorLiteralB_negative : regsAfter (at_ 0 (-1) 0 0 1 7) = some (0, -8, 0, 2) := by decide
theorem test_modB_same_register : regsAfter (at_ 0 254 0 0 2 5) = some (0, 6, 0, 2) := by decide
theorem test_modB_negative : regsAfter (at_ 0 0 (-1) 0 2 6) = some (0, 7, -1, 2) := by decide
theorem test_jump_negative_A_taken : regsAfter (at_ (-3) 0 0 0 3 4) = some (-3, 0, 0, 4) := by decide
theorem test_jump_odd_target : recordAfter (at_ 6 0 0 2 3 3) = some (2, 2, 2, 2) := by decide
theorem test_xorBC_ignores_7 : regsAfter (at_ 0 3 253 0 4 7) = some (0, 254, 253, 2) := by decide
theorem test_xorBC_negative : regsAfter (at_ 0 (-5) (-1) 4 4 5) = some (0, 4, -1, 6) := by decide
theorem test_emit_appends_at_the_end :
    outAfter { at_ 0 0 (-1) 0 5 6 with out := [4] } = some [4, 7] := by decide
theorem test_emit_full :
    recordAfter { at_ 364 0 0 2 5 4 with out := [1], params := ⟨none, some 1⟩ } = some (2, 6, 2, 2) := by decide
theorem test_reserved_combo : recordAfter (at_ 9 0 0 2 0 7) = some (2, 1, 2, 2) := by decide

/-! ### Fetch faults, halting, the first instruction after reset -/

theorem test_illegal_opcode : recordAfter (at_ 9 0 0 2 8 9) = some (2, 3, 2, 2) := by decide
theorem test_truncated : recordAfter { at_ 9 0 0 2 8 9 with len := 3 } = some (2, 5, 2, 2) := by decide
theorem test_halted_has_no_step : nextOf (step { at_ 9 0 0 2 0 1 with ip := 4 }) = none := by decide
theorem test_reset_halts : State.reset.status.code = 1 := by decide
theorem test_first_instruction : regsAfter (State.reset.withFetchWord 8 0b001101) = some (0, 5, 0, 2) := by decide
theorem test_first_emit : outAfter (State.reset.withFetchWord 8 0b101011) = some [3] := by decide

/-! ### Launches (95_test_vectors.md 2.6) -/

/-- The refusal of a launch on an implementation without bounds. -/
def refusalOf (prog : List Int) (a0 : Int) : Option LaunchRefusal := launchRefusal ⟨none, none⟩ ⟨prog, a0, 0, 0⟩

theorem test_launch_refusals :
    refusalOf [0, 1, 5] 0 = some .oddLength ∧ refusalOf [0, 1, 8, 4] 0 = some (.cellOutOfRange 2) ∧
    refusalOf [0, -1] 0 = some (.cellOutOfRange 1) ∧ refusalOf [0, 8, 5] 0 = some .oddLength ∧
    refusalOf [] 9223372036854775808 = some (.registerOutOfRange .A) ∧
    refusalOf [] (-9223372036854775808) = none := by decide
theorem test_launch_too_long :
    launchRefusal ⟨some 4, none⟩ ⟨List.replicate 16 0, 0, 0, 0⟩ = some .programTooLong ∧
    launchRefusal ⟨some 4, none⟩ ⟨List.replicate 14 0, 0, 0, 0⟩ = none := by decide

/-- T-S3: with A zero the run of `[3, 0]` halts after one step, with nothing emitted. -/
theorem test_run_halts :
    runUpTo 1 (launchState ⟨none, none⟩ ⟨[3, 0], 0, 0, 0⟩) = .halted [] := by decide

/-- The first fault of program P4, one step before it ends: the trace's last element replaces the state it started in. -/
theorem test_trace_of_a_fault :
    (traceUpTo 5 (at_ 9 0 0 2 0 7)).map (fun t => (t.status.code, t.ip)) = [(2, 2)] := by decide

/-! ### Assembler syntax (R82's example) -/

theorem test_assemble :
    assemble [⟨"shift-A", .hash 1⟩, ⟨"emit", .regA⟩, ⟨"jump-if-A-nonzero", .number 0⟩] = some [0, 1, 5, 4, 3, 0] := by
  decide

/-! ### Witnesses: for each obligation with hypotheses, values that meet them, each clause at an edge of its range -/

/-- The extremes of the words and of the shift amount. -/
def intMin : Word := BitVec.ofInt 64 (-2 ^ 63)

/-- A state on an implementation with OUT_CAP 1, whose accumulator is full. -/
def full (operand : Cell) : State :=
  { at_ 364 8 9 2 5 operand with out := [1], params := ⟨some 4, some 1⟩ }

/-- The launch of the self-jump `[3, 0]` and of R195's example, and the launch with the longest program IP_W 4 admits. -/
def selfJump : LaunchInput := ⟨[3, 0], 5, 0, 0⟩
def countdown : LaunchInput := ⟨[0, 1, 5, 4, 3, 0], 729, 0, 0⟩
def longest : LaunchInput := ⟨List.replicate 14 0, 2 ^ 63 - 1, -2 ^ 63, 0⟩

theorem witness_AsrMovesBitsAndCopiesTheSign :
    (255 ≤ 255 ∧ 63 < 64 ∧ ¬ 63 + 255 < 64) ∧ (0 ≤ 255 ∧ 63 < 64 ∧ 63 + 0 < 64) := by decide
theorem witness_AsrResultsBySignAndAmount :
    (0 ≤ (0 : Word).toInt ∧ 1 ≤ 1 ∧ 62 ≤ 62) ∧ (intMin.toInt < 0 ∧ (-1 : Word).toInt < 0) ∧
    63 ≤ 63 ∧ 63 ≤ 255 ∧ 255 ≤ 255 ∧ (BitVec.ofInt 64 (2 ^ 63 - 1)).toInt = 2 ^ 63 - 1 ∧ intMin.toInt = -2 ^ 63 := by
  decide
theorem witness_TwoShiftsAreOneShift : 255 + 0 ≤ 255 ∧ 63 + 192 ≤ 255 := by decide
theorem witness_AsrAgainstTheTruncatingQuotient :
    (2 ^ 63 : Int) ∣ intMin.toInt ∧ ¬ (0 ≤ (-7 : Word).toInt ∨ (2 ^ 1 : Int) ∣ (-7 : Word).toInt) ∧ 255 ≤ 255 := by decide
theorem witness_EmodIsTheLowBitsAndUnique :
    (7 < 8 ∧ (8 : Int) ∣ (-1 : Word).toInt - 7) ∧ (0 < 256 ∧ (256 : Int) ∣ intMin.toInt - 0) := by decide
theorem witness_XorLawsOnSignedValues :
    (0 ≤ (7 : Word).toInt ∧ (7 : Word).toInt < 2 ^ 3) ∧ (0 ≤ (0 : Word).toInt ∧ (0 : Word).toInt < 2 ^ 0) := by decide

theorem witness_DecodeReadsBackEveryEncoding :
    (Instr.shiftA 0).WellFormed ∧ (Instr.emit 7).WellFormed ∧ (Instr.xorBC 7).WellFormed := by decide
theorem witness_DecodeAnswersOnlyEncodings :
    decode [5, 7, 1] = .ok (.emit 7, [1]) ∧ (Instr.emit 7).operandKind ≠ .ignored ∧
    decode [4, 255] = .ok (.xorBC 255, []) := by decide
theorem witness_DecodeRejectsByName :
    [(7 : Cell)].length < 2 ∧ 7 < (8 : Cell).toNat ∧ ((7 : Cell).toNat ≤ 7 ∧ (7 : Cell).toNat ≠ 4 ∧ 7 < (8 : Cell).toNat) := by
  decide
theorem witness_EncodingClassDecidesTheFault :
    ((Instr.emit 6).WellFormed ∧ (Instr.emit 6).encodingClass = .plain ∧ (at_ 0 0 0 0 5 6).outFull = false) ∧
    ((Instr.emit 7).WellFormed ∧ (Instr.emit 7).encodingClass = .reservedForm) ∧
    ((Instr.jumpIfANonzero 7).WellFormed ∧ (Instr.jumpIfANonzero 7).encodingClass = .oddJump) := by decide

theorem witness_LiteralIsTheRawNumber : (7 : Cell).toNat ≤ 7 ∧ (0 : Cell).toNat ≤ 7 := by decide
theorem witness_OperandCellAboveSevenFaults :
    (Instr.jumpIfANonzero 8).operandKind ≠ .ignored ∧ 7 < (Instr.jumpIfANonzero 8).operand.toNat ∧
    (Instr.shiftC 255).operandKind ≠ .ignored ∧ 7 < (Instr.shiftC 255).operand.toNat := by decide

/-- Of `ComboGivesTheDenotedValue`, the three shifts and `mod-B`: each way an operand denotes a value. -/
theorem witness_ComboDenotes :
    ComboDenotes (at_ 7 8 9 0 0 0) 0 0 ∧ ComboDenotes (at_ 7 8 9 0 0 0) 3 3 ∧ ComboDenotes (at_ 7 8 9 0 0 0) 4 7 ∧
    ComboDenotes (at_ 7 8 9 0 0 0) 5 8 ∧ ComboDenotes (at_ 7 8 (-1) 0 0 0) 6 (-1) := by
  unfold ComboDenotes
  decide

/-- The three reserved forms, and the cases of A that `ShiftAStoresTheFloorQuotient` names. -/
theorem witness_ShiftAStoresTheFloorQuotient :
    (7 : Cell).toNat = 7 ∧ (0 : Cell).toNat = 0 ∧ (at_ 0 0 0 0 0 0).a = 0 ∧ (at_ (-1) 0 0 0 0 0).a = -1 ∧
    (at_ (-1) 0 0 0 0 0).a.toInt < 0 := by decide
theorem witness_XorLiteralFlipsTheLowBitsOfB : (7 : Cell).toNat ≤ 7 ∧ (0 : Cell).toNat ≤ 7 := by decide
theorem witness_XorBCIgnoresItsOperand :
    (at_ 0 (-1) (-1) 0 4 7).b = (at_ 0 (-1) (-1) 0 4 7).c ∧ (at_ 0 3 0 0 4 7).c = 0 := by decide
theorem witness_JumpGoesToItsLiteralWhenANonzero :
    ((7 : Cell).toNat ≤ 7 ∧ (at_ 0 0 0 0 3 7).a = 0) ∧
    ((6 : Cell).toNat ≤ 7 ∧ (at_ (-1) 0 0 0 3 6).a ≠ 0 ∧ (6 : Cell).toNat % 2 = 0) ∧
    ((7 : Cell).toNat ≤ 7 ∧ (at_ 1 0 0 0 3 7).a ≠ 0 ∧ (7 : Cell).toNat % 2 = 1) := by decide
theorem witness_EmitAppendsOneDigit :
    (ComboDenotes (full 6) 6 9 ∧ (full 6).outFull = true) ∧
    (ComboDenotes { full 3 with out := [] } 3 3 ∧ ¬ State.outFull { full 3 with out := [] }) := by
  unfold ComboDenotes
  decide

theorem witness_OnlyATakenJumpDoesNotAdvanceByTwo :
    ((at_ 1 0 0 0 3 6).cause = .noFault ∧
      exec (.jumpIfANonzero 6) (at_ 1 0 0 0 3 6) = .next { at_ 1 0 0 0 3 6 with ip := 6 } ∧
      State.cause { at_ 1 0 0 0 3 6 with ip := 6 } = .noFault) ∧
    exec (.jumpIfANonzero 6) (at_ 0 0 0 0 3 6) = .next { at_ 0 0 0 0 3 6 with ip := 2 } ∧
    exec (.shiftC 0) (at_ 5 0 0 4 7 0) = .next { at_ 5 0 5 4 7 0 with ip := 6 } :=
  ⟨⟨by decide, eq_next (by decide), by decide⟩, eq_next (by decide), eq_next (by decide)⟩
theorem witness_OnlyTheListedOpcodesWrite :
    exec (.emit 3) (at_ 0 0 0 0 5 3) = .next { at_ 0 0 0 0 5 3 with ip := 2, out := [3] } ∧
    exec (.shiftB 0) (at_ 5 0 0 4 6 0) = .next { at_ 5 5 0 4 6 0 with ip := 6 } :=
  ⟨eq_next (by decide), eq_next (by decide)⟩

/-- `shift-C` with a number overwrites C and reads neither B nor C; B keeps the value put there. -/
theorem witness_UnreadRegistersHaveNoInfluence :
    ¬ ReadsReg (.shiftC 1) .C ∧ WritesReg (.shiftC 1) .C ∧ ¬ ReadsReg (.shiftC 1) .B ∧ ¬ WritesReg (.shiftC 1) .B ∧
    (at_ 6 8 9 0 7 1).cause = .noFault ∧
    exec (.shiftC 1) (at_ 6 8 9 0 7 1) = .next { at_ 6 8 3 0 7 1 with ip := 2 } := by
  refine ⟨?_, ?_, ?_, ?_, ?_, ?_⟩
  · unfold ReadsReg; decide
  · unfold WritesReg; decide
  · unfold ReadsReg; decide
  · unfold WritesReg; decide
  · decide
  · exact eq_next (by decide)

theorem witness_StepRunsTheDecodedInstruction :
    (at_ 9 0 0 2 5 4).status = .run ∧ (at_ 9 0 0 2 5 4).ip + 2 ≤ (at_ 9 0 0 2 5 4).len ∧
    decode [(at_ 9 0 0 2 5 4).prog.read 2, (at_ 9 0 0 2 5 4).prog.read 3] = .ok (.emit 4, []) := by decide
theorem witness_PlacedWordIsRunNext :
    State.reset.prog.wf ∧ decodeTableWord 6 63 = some (.shiftC 7) ∧
    (at_ 9 0 0 3 5 4).prog.wf ∧ decodeTableWord 8 0 = some (.shiftA 0) := by decide
theorem witness_ExactlyTheRunningStatesStep :
    ((at_ 9 0 0 2 5 4).cause = .noFault ∧ (at_ 9 0 0 2 5 4).ip < (at_ 9 0 0 2 5 4).len) ∧
    (State.reset.cause = .noFault ∧ State.reset.len ≤ State.reset.ip) ∧
    State.cause { State.reset with cause := .reservedCombo } ≠ .noFault := by decide
theorem witness_FaultEntryChangesOnlyTheRecord :
    step (full 4) = .next { full 4 with cause := .outputOverflow, faultIp := 2 } ∧
    State.cause { full 4 with cause := .outputOverflow, faultIp := 2 } ≠ .noFault :=
  ⟨eq_next (by decide), by decide⟩

/-- Each fault of the order of priority, and none of them, is the expected one of some running state. -/
theorem witness_StepRaisesTheFirstFaultInPriority :
    (∀ s ∈ [at_ 9 0 0 2 8 9, full 8, full 7, at_ 9 0 0 2 3 7, full 4, at_ 9 0 0 2 4 9],
      s.cause = .noFault ∧ s.ip < s.len) ∧
    [at_ 9 0 0 2 8 9, full 8, full 7, at_ 9 0 0 2 3 7, full 4, at_ 9 0 0 2 4 9].map expectedFault =
      [.illegalOpcode, .illegalOperand, .reservedCombo, .misalignedJump, .outputOverflow, .noFault] ∧
    (State.cause { at_ 9 0 0 2 8 9 with len := 3 } = .noFault ∧
      expectedFault { at_ 9 0 0 2 8 9 with len := 3 } = .truncatedInstruction) := by decide

/-- Of `LaunchMeetsTheInvariant` and `NoRunReachesADecodeFault`: a launch at the edge of IP_W = 4. -/
theorem witness_LaunchMeetsTheInvariant :
    (Params.mk (some 4) (some 0)).valid ∧
    launch ⟨some 4, some 0⟩ longest = .ok (launchState ⟨some 4, some 0⟩ longest) := by decide
theorem witness_EveryStepKeepsTheInvariant :
    (full 4).Inv ∧ step (full 4) = .next { full 4 with cause := .outputOverflow, faultIp := 2 } ∧
    (at_ 3 0 0 6 3 6).Inv ∧ step (at_ 3 0 0 6 3 6) = .next (at_ 3 0 0 6 3 6) := by
  refine ⟨?_, eq_next (by decide), ?_, eq_next (by decide)⟩ <;>
  constructor <;> decide
theorem witness_Reaches :
    Reaches (at_ (-4) 0 0 0 0 1) { at_ (-2) 0 0 0 0 1 with ip := 2 } ∧ (at_ (-4) 0 0 0 0 1).a.toInt < 0 ∧
    Reaches (at_ 1 0 0 0 0 1) { at_ 0 0 0 0 0 1 with ip := 2 } ∧ 0 ≤ (at_ 1 0 0 0 0 1).a.toInt :=
  ⟨.step .here (eq_next (by decide)), by decide, .step .here (eq_next (by decide)), by decide⟩
theorem witness_NoRunReachesADecodeFault :
    (Params.mk none none).valid ∧ launch ⟨none, none⟩ selfJump = .ok (launchState ⟨none, none⟩ selfJump) ∧
    Reaches (launchState ⟨none, none⟩ selfJump) (launchState ⟨none, none⟩ selfJump) :=
  ⟨by decide, by decide, .step .here (eq_next (by decide))⟩

/-- The two edges of the premise `ip <= 7` and of an even `ip`: 0 and 6. -/
theorem witness_SelfJumpRunsForever :
    (∀ s ∈ [at_ 1 0 0 0 3 0, at_ (-1) 0 0 6 3 6], s.cause = .noFault ∧ s.ip + 2 ≤ s.len ∧ s.ip % 2 = 0 ∧ s.ip ≤ 7 ∧
      s.a ≠ 0 ∧ s.prog.read s.ip = 3 ∧ (s.prog.read (s.ip + 1)).toNat = s.ip) := by decide

/-- Targets equal to L and above it. -/
theorem witness_JumpOutOfTheProgramHalts :
    (∀ s ∈ [at_ 1 0 0 0 3 2, at_ 1 0 0 0 3 6], s.cause = .noFault ∧ s.ip + 2 ≤ s.len ∧ s.a ≠ 0 ∧
      s.prog.read s.ip = 3 ∧ (s.prog.read (s.ip + 1)).toNat ≤ 7 ∧ (s.prog.read (s.ip + 1)).toNat % 2 = 0 ∧
      s.len ≤ (s.prog.read (s.ip + 1)).toNat) := by decide
theorem witness_MoreFuelGivesTheSameAnswer :
    runUpTo 0 State.reset ≠ .noAnswer ∧ runUpTo 1 (full 7) ≠ .noAnswer := by decide

/-- Traces with consecutive elements: one that goes on running, and one whose last element is faulted. -/
theorem witness_TraceEndsAsTheRunEnds :
    (traceUpTo 1 (at_ 1 0 0 0 3 0))[1]? = some (at_ 1 0 0 0 3 0) ∧
    (traceUpTo 2 { at_ 1 0 0 0 3 2 with len := 3 }).map (fun t => (t.status.code, t.ip)) = [(0, 0), (2, 2)] := by decide

/-- The example program of R195: R195's shape holds of it. -/
theorem witness_ProgramsOfTheShapeHalt :
    launch ⟨none, none⟩ countdown = .ok (launchState ⟨none, none⟩ countdown) ∧ 0 ≤ countdown.a0 ∧
    HaltingShape countdown.prog := by
  refine ⟨by decide, by decide, by decide, ?_, by decide, ⟨0, by decide⟩, ?_⟩
  all_goals
    intro k hk
    have h : k = 0 ∨ k = 1 ∨ k = 2 := by
      simp [countdown] at hk
      omega
    rcases h with rfl | rfl | rfl <;> decide

theorem witness_LaunchRefusalsInOrder :
    (launch ⟨none, none⟩ ⟨[0], 0, 0, 0⟩ = .error .oddLength ∧
      launch ⟨none, none⟩ ⟨[7, 8], 0, 0, 0⟩ = .error (.cellOutOfRange 1) ∧
      launch ⟨some 4, none⟩ ⟨List.replicate 16 0, 0, 0, 0⟩ = .error .programTooLong) ∧
    launch ⟨none, none⟩ ⟨[], 2 ^ 63, 0, 0⟩ = .error (.registerOutOfRange .A) ∧
    launch ⟨none, none⟩ ⟨[], 2 ^ 63 - 1, -2 ^ 63 - 1, 0⟩ = .error (.registerOutOfRange .B) ∧
    launch ⟨none, none⟩ ⟨[], 0, -2 ^ 63, 2 ^ 63⟩ = .error (.registerOutOfRange .C) := by decide
theorem witness_LaunchCreatesTheTabledState :
    longest.prog.length % 2 = 0 ∧ (∀ v ∈ longest.prog, isCell v) ∧ (Params.mk (some 4) none).admits longest.prog.length ∧
    isInt64 longest.a0 ∧ isInt64 longest.b0 ∧ isInt64 longest.c0 := by decide
/-- A refused launch, and a launch whose run halts, faults (`emit ?7`) or is still running after the fuel. -/
theorem witness_ExecuteGivesTheEndOfTheLaunchedRun :
    launch ⟨none, none⟩ ⟨[7], 0, 0, 0⟩ = .error .oddLength ∧
    launch ⟨none, none⟩ selfJump = .ok (launchState ⟨none, none⟩ selfJump) ∧
    execute 1 ⟨none, none⟩ selfJump = .ok .noAnswer ∧
    execute 1 ⟨none, none⟩ ⟨[5, 3], 0, 0, 0⟩ = .ok (.halted [3]) ∧
    execute 1 ⟨none, none⟩ ⟨[5, 7], 0, 0, 0⟩ = .ok (.faulted .reservedCombo 0) := by decide
theorem witness_AssemblyReadsBackTheInstruction :
    (Instr.shiftA 7).WellFormed ∧ ∀ i ∈ [Instr.emit 4, .xorBC 0], i.WellFormed := by decide

end Sys2Proof.Tests
end

section
/-! PROOF. Where an instruction leaves `ip` (R28): the instructions other than the jump advance by 2 or fault, and the
jump goes to its literal exactly where A is not zero. -/

namespace Sys2Proof.Machine

/-- The outcome `r` records a fault in `s`, or ends by advancing a state that still has the `ip` of `s`. -/
def FaultsOrAdvances (s : State) (r : Result) : Prop :=
  (∃ f, f ≠ .noFault ∧ r = .next (s.enterFault f)) ∨ ∃ u : State, u.ip = s.ip ∧ r = .next u.advance

/-- Where no fault is recorded, such an outcome has `ip` advanced by 2. -/
theorem FaultsOrAdvances.ip_eq {s t : State} {r : Result} (hr : FaultsOrAdvances s r) (h : r = .next t)
    (ht : t.cause = .noFault) : t.ip = s.ip + 2 := by
  rcases hr with ⟨f, hf, e⟩ | ⟨u, hu, e⟩ <;> cases h.symm.trans e
  · exact absurd ht hf
  · rw [State.advance_ip, hu]

/-- The three shifts, whichever register they write (R110). -/
theorem shiftInto_faultsOrAdvances (r : Reg) (o : Cell) (s : State) : FaultsOrAdvances s (shiftInto r o s) := by
  rcases shiftInto_cases r o s with ⟨v, -, e⟩ | ⟨f, hf, -, e⟩
  · exact .inr ⟨_, State.setReg_ip .., e⟩
  · exact .inl ⟨f, hf, e⟩

/-- Every instruction but opcode 3 leaves `ip` to the default advance (R28, R98). -/
theorem exec_faultsOrAdvances {i : Instr} (s : State) (hi : i.opcode ≠ 3) : FaultsOrAdvances s (exec i s) := by
  cases i with
  | shiftA o => exact shiftInto_faultsOrAdvances .A o s
  | shiftB o => exact shiftInto_faultsOrAdvances .B o s
  | shiftC o => exact shiftInto_faultsOrAdvances .C o s
  | modB o =>
    rcases execModB_cases o s with ⟨v, -, e⟩ | ⟨f, hf, -, e⟩
    · exact .inr ⟨_, State.setReg_ip .., e⟩
    · exact .inl ⟨f, hf, e⟩
  | xorLiteralB o =>
    rcases execXorLiteralB_cases o s with ⟨-, e⟩ | ⟨-, e⟩
    · exact .inr ⟨_, State.setReg_ip .., e⟩
    · exact .inl ⟨_, by decide, e⟩
  | xorBC o => exact .inr ⟨_, State.setReg_ip .., execXorBC_eq o s⟩
  | jumpIfANonzero o => exact absurd rfl hi
  | emit o =>
    rcases execEmit_cases o s with ⟨v, -, -, e⟩ | ⟨v, -, -, e⟩ | ⟨f, hf, -, e⟩
    · exact .inr ⟨{ s with out := s.out ++ [digitOf v] }, rfl, e⟩
    · exact .inl ⟨_, by decide, e⟩
    · exact .inl ⟨f, hf, e⟩

/-- R28 for the jump; a taken jump to an odd literal faults, so it is not among the outcomes here (R141). -/
theorem execJumpIfANonzero_ip {o : Cell} {s t : State} (h : execJumpIfANonzero o s = .next t)
    (ht : t.cause = .noFault) : t.ip = if s.a ≠ 0 then o.toNat else s.ip + 2 := by
  rcases execJumpIfANonzero_cases o s with ⟨-, ha, e⟩ | ⟨-, ha, -, e⟩ | ⟨-, -, -, e⟩ | ⟨-, e⟩ <;>
    cases h.symm.trans e
  · rw [if_neg (not_not.2 ha), State.advance_ip]
  · rw [if_pos ha, State.setIp_ip]
  · cases ht
  · cases ht

end Sys2Proof.Machine

namespace Sys2Proof

open Machine

/-- Settles O26, by the jump's own rule and the common rule of the seven other instructions. -/
theorem onlyATakenJumpDoesNotAdvanceByTwo : Obligations.OnlyATakenJumpDoesNotAdvanceByTwo := by
  unfold Obligations.OnlyATakenJumpDoesNotAdvanceByTwo
  intro i s t _ h ht
  cases i with
  | jumpIfANonzero o => exact execJumpIfANonzero_ip h ht
  | _ => exact (exec_faultsOrAdvances s (by simp [Instr.opcode])).ip_eq h ht

end Sys2Proof
end

section
/-! PROOF. The literal operands (R72, R95): which instructions have one, and what the resolver answers for a cell 0..7. -/

namespace Sys2Proof

/-- The column of the opcode table that R72 gives for literal operands (R120, R140). -/
theorem operandKind_eq_literal {i : Instr} : i.operandKind = .literal ↔ i.opcode = 1 ∨ i.opcode = 3 := by
  cases i with
  | xorLiteralB o => exact iff_of_true rfl (.inl rfl)
  | jumpIfANonzero o => exact iff_of_true rfl (.inr rfl)
  | _ => simp [Instr.operandKind, Instr.opcode]

end Sys2Proof

namespace Sys2Proof.Machine

/-- A cell 0..7 is answered as the number it holds: no register is read and no fault is possible (R95). -/
theorem literal_of_le {sel : Cell} (h : sel.toNat ≤ 7) : literal sel = .ok (zext64 sel) := by
  rcases literal_cases sel with ⟨-, e⟩ | ⟨hgt, -⟩
  · exact e
  · omega

end Sys2Proof.Machine

namespace Sys2Proof

open Machine

/-- Settles O15, by the table's literal rows and the resolver's answer on 0..7, of which 7 and 4 are instances. -/
theorem literalIsTheRawNumber : Obligations.LiteralIsTheRawNumber := by
  unfold Obligations.LiteralIsTheRawNumber
  refine ⟨fun _ => operandKind_eq_literal, fun sel hsel => ?_, ?_, ?_⟩
  · exact ⟨zext64 sel, literal_of_le hsel, zext64_toNat sel⟩
  · exact literal_of_le (sel := 7) (by decide)
  · exact literal_of_le (sel := 4) (by decide)

end Sys2Proof
end

section
/-! PROOF. `xor-literal-B` (R120): its two cells, its whole effect, and what exclusive or with a number 0..7 does to a
word: it flips among bits 2..0 and leaves bits 63..3, so the sign. -/

namespace Sys2Proof

/-- Where the operand cell is in range, the decoder answers the instruction that its two cells belong to (R75). -/
theorem decodePair_of_wellFormed {i : Instr} (h : i.WellFormed) : decodePair i.opcode i.operand = .ok i := by
  have hi : instrOfOpcode i.opcode i.operand = some i := instrOfOpcode_eq_some.2 ⟨rfl, rfl⟩
  unfold decodePair
  rw [hi]
  exact if_neg fun hbad => Nat.not_lt.2 h hbad.2

/-- The cells of a well-formed instruction are read back, and the cells after them are left over (R53, R70). -/
theorem decode_of_wellFormed {i : Instr} (h : i.WellFormed) (rest : List Cell) :
    decode (i.opcode :: i.operand :: rest) = .ok (i, rest) := by
  rw [decode_cons_cons, decodePair_of_wellFormed h]

end Sys2Proof

namespace Sys2Proof.Machine

/-- The exclusive or is taken bit by bit (R11). -/
@[simp] theorem getLsbD_xor64 (a b : Word) (n : Nat) : (xor64 a b).getLsbD n = (a.getLsbD n ^^ b.getLsbD n) :=
  BitVec.getLsbD_xor

/-- Exclusive or with 0 keeps the word (R122). -/
@[simp] theorem xor64_zero (a : Word) : xor64 a 0 = a := BitVec.xor_zero

/-- Exclusive or with the same word twice restores the first (R122). -/
@[simp] theorem xor64_xor64_cancel (a b : Word) : xor64 (xor64 a b) b = a := by
  unfold xor64
  rw [BitVec.xor_assoc, BitVec.xor_self, BitVec.xor_zero]

/-- Zero extension keeps the cell's bits; those above the cell are 0. -/
@[simp] theorem getLsbD_zext64 (c : Cell) (n : Nat) : (zext64 c).getLsbD n = c.getLsbD n := by
  rw [← BitVec.testBit_toNat, zext64_toNat, BitVec.testBit_toNat]

/-- A cell 0..7 has no bit from bit 3 on. -/
theorem getLsbD_eq_false_of_le_seven {c : Cell} (h : c.toNat ≤ 7) {n : Nat} (hn : 3 ≤ n) : c.getLsbD n = false := by
  have hlt : c.toNat < 2 ^ n := calc
    c.toNat < 2 ^ 3 := by omega
    _ ≤ 2 ^ n := Nat.pow_le_pow_right (by decide) hn
  rw [← BitVec.testBit_toNat]
  exact Nat.testBit_lt_two_pow hlt

/-- The sign of a word is its bit 63 (R8). -/
theorem toInt_neg_iff_getLsbD (a : Word) : a.toInt < 0 ↔ a.getLsbD 63 = true := by
  have hmsb : a.getLsbD 63 = a.msb := (BitVec.msb_eq_getLsbD_last a).symm
  rw [hmsb, BitVec.msb_eq_toInt, decide_eq_true_iff]

/-- Bits 63..3 survive exclusive or with a number 0..7 (R120). -/
theorem getLsbD_xor64_zext64_of_le {sel : Cell} (h : sel.toNat ≤ 7) (b : Word) {n : Nat} (hn : 3 ≤ n) :
    (xor64 b (zext64 sel)).getLsbD n = b.getLsbD n := by
  rw [getLsbD_xor64, getLsbD_zext64, getLsbD_eq_false_of_le_seven h hn, Bool.xor_false]

/-- The sign survives with them, bit 63 being one of these (R120). -/
theorem xor64_zext64_neg_iff {sel : Cell} (h : sel.toNat ≤ 7) (b : Word) :
    (xor64 b (zext64 sel)).toInt < 0 ↔ b.toInt < 0 := by
  rw [toInt_neg_iff_getLsbD, toInt_neg_iff_getLsbD, getLsbD_xor64_zext64_of_le h b (by decide)]

/-- The whole effect of opcode 1 with an operand cell 0..7: B and `ip` change, and no fault is possible (R120). -/
theorem exec_xorLiteralB_of_le {sel : Cell} (h : sel.toNat ≤ 7) (s : State) :
    exec (.xorLiteralB sel) s = .next { s with b := xor64 s.b (zext64 sel), ip := s.ip + 2 } := by
  rcases execXorLiteralB_cases sel s with ⟨-, e⟩ | ⟨hgt, -⟩
  · exact e
  · omega

/-- Executed twice in a row, opcode 1 only advances `ip` over both instructions (R120). -/
theorem exec_xorLiteralB_twice {sel : Cell} (h : sel.toNat ≤ 7) (s : State) :
    exec (.xorLiteralB sel) { s with b := xor64 s.b (zext64 sel), ip := s.ip + 2 } =
      .next { s with ip := s.ip + 4 } := by
  rw [exec_xorLiteralB_of_le h, xor64_xor64_cancel]

end Sys2Proof.Machine

namespace Sys2Proof

open Machine

/-- Settles O21, by the round trip of the cells, the whole effect of opcode 1, and the bits of an exclusive or with a
number 0..7. -/
theorem xorLiteralFlipsTheLowBitsOfB : Obligations.XorLiteralFlipsTheLowBitsOfB := by
  unfold Obligations.XorLiteralFlipsTheLowBitsOfB
  intro s sel hsel
  refine ⟨decode_of_wellFormed (i := .xorLiteralB sel) hsel [], xor64 s.b (zext64 sel),
    exec_xorLiteralB_of_le hsel s, rfl, fun n _ => ?lowBits, fun n hn => ?highBits, xor64_zext64_neg_iff hsel s.b,
    fun h0 => ?zeroKeeps, exec_xorLiteralB_twice hsel s⟩
  case lowBits => rw [getLsbD_xor64, getLsbD_zext64]
  case highBits => exact getLsbD_xor64_zext64_of_le hsel s.b hn
  case zeroKeeps =>
    subst h0
    exact xor64_zero s.b

end Sys2Proof
end

section
/-! PROOF. The decoder against the encoder (R53, R70, R75): on which cells it answers an instruction, on which each
of its rejections, and what that gives for the words of the opcode map (R71, R76). -/

namespace Sys2Proof

/-- A cell is opcode 4's exactly if it holds the number 4. -/
theorem cell_eq_four_iff (c : Cell) : c = 4 ↔ c.toNat = 4 := BitVec.toNat_inj.symm

/-- When a pair of cells is an instruction: it is that instruction's pair, and the operand is in range or ignored. -/
theorem decodePair_eq_ok {opcode operand : Cell} {i : Instr} :
    decodePair opcode operand = .ok i ↔
      (i.opcode = opcode ∧ i.operand = operand) ∧ (opcode = 4 ∨ operand.toNat ≤ 7) := by
  rcases decodePair_cases opcode operand with ⟨h7, e⟩ | ⟨j, hop, hopd, h7, ⟨h4, hgt, e⟩ | ⟨hok, e⟩⟩ <;> rw [e]
  · refine iff_of_false (by simp) fun ⟨h, _⟩ => ?_
    rw [← instrOfOpcode_eq_some, instrOfOpcode_eq_none.2 h7] at h
    cases h
  · exact iff_of_false (by simp) fun ⟨_, h⟩ => h.elim h4 (by omega)
  · have hj : instrOfOpcode opcode operand = some j := instrOfOpcode_eq_some.2 ⟨hop, hopd⟩
    rw [← instrOfOpcode_eq_some, hj, and_iff_left hok, Except.ok.injEq, Option.some.injEq]

/-- Which pairs are rejected, and by which name (R164, R169). -/
theorem decodePair_eq_error {opcode operand : Cell} {e : DecodeError} :
    decodePair opcode operand = .error e ↔
      (e = .illegalOpcode ∧ 7 < opcode.toNat) ∨
        (e = .illegalOperand ∧ opcode.toNat ≤ 7 ∧ opcode.toNat ≠ 4 ∧ 7 < operand.toNat) := by
  rcases decodePair_cases opcode operand with ⟨h7, hd⟩ | ⟨j, -, -, h7, ⟨h4, hgt, hd⟩ | ⟨hok, hd⟩⟩ <;>
    simp only [hd, Except.error.injEq, reduceCtorEq, false_iff]
  · simp [h7, Nat.not_le.2 h7, eq_comm]
  · rw [ne_eq, cell_eq_four_iff] at h4
    simp [h7, hgt, h4, Nat.not_lt.2 h7, eq_comm]
  · rw [cell_eq_four_iff] at hok
    omega

/-- Two cells and more are read by their first pair alone. -/
theorem decode_cons_cons_eq_ok {opcode operand : Cell} {rest more : List Cell} {i : Instr} :
    decode (opcode :: operand :: rest) = .ok (i, more) ↔ decodePair opcode operand = .ok i ∧ rest = more := by
  rw [decode_cons_cons]
  cases decodePair opcode operand <;> simp

/-- Two cells and more are rejected for their first pair alone. -/
theorem decode_cons_cons_eq_error {opcode operand : Cell} {rest : List Cell} {e : DecodeError} :
    decode (opcode :: operand :: rest) = .error e ↔ decodePair opcode operand = .error e := by
  rw [decode_cons_cons]
  cases decodePair opcode operand <;> simp

/-- Settles O8, by the round trip of an instruction's two cells. -/
theorem decodeReadsBackEveryEncoding : Obligations.DecodeReadsBackEveryEncoding := by
  unfold Obligations.DecodeReadsBackEveryEncoding
  intro i rest hwf
  exact decode_of_wellFormed hwf rest

/-- Settles O9: the decoder answers on a pair of cells only, and that pair is the instruction's. -/
theorem decodeAnswersOnlyEncodings : Obligations.DecodeAnswersOnlyEncodings := by
  unfold Obligations.DecodeAnswersOnlyEncodings
  intro cells rest i h
  match cells with
  | [] => cases h
  | [_] => cases h
  | opcode :: operand :: more =>
    obtain ⟨hpair, rfl⟩ := decode_cons_cons_eq_ok.1 h
    obtain ⟨⟨rfl, rfl⟩, hrange⟩ := decodePair_eq_ok.1 hpair
    refine ⟨rfl, fun hkind => hrange.resolve_left fun h4 => ?_⟩
    exact hkind (operandKind_eq_ignored.2 h4)

/-- Settles O10, by the rejections of a pair, of which `truncated` is none. -/
theorem decodeRejectsByName : Obligations.DecodeRejectsByName := by
  unfold Obligations.DecodeRejectsByName
  refine ⟨fun cells => ?truncated, fun opcode operand rest => ?rejections⟩
  case truncated =>
    match cells with
    | [] => simp [decode]
    | [_] => simp [decode]
    | opcode :: operand :: rest =>
      rw [decode_cons_cons_eq_error, decodePair_eq_error]
      simp
  case rejections =>
    simp [decode_cons_cons_eq_error, decodePair_eq_error]

/-! ### The words of the opcode map -/

/-- The rows of the opcode map differ in their patterns (R75). -/
theorem eq_of_pattern_eq : ∀ q ∈ opcodeMap, ∀ r ∈ opcodeMap, q.pattern = r.pattern → q = r := by decide

/-- All rows look at the three opcode bits (R71). -/
theorem mask_eq : ∀ q ∈ opcodeMap, q.mask = 56 := by decide

/-- A word is selected by one row at most: a row that selects it is the only one that does. -/
theorem selects_iff_eq_of_selects {r : OpcodeRow} (hr : r ∈ opcodeMap) {w : Nat} (hw : r.selects w = true) :
    ∀ q ∈ opcodeMap, q.selects w = true ↔ q = r := by
  intro q hq
  refine ⟨fun h => eq_of_pattern_eq q hq r hr ?_, fun h => h ▸ hw⟩
  simp only [OpcodeRow.selects, beq_iff_eq, mask_eq q hq, mask_eq r hr] at h hw
  exact h.symm.trans hw

/-- Every instruction has its row of the opcode map. -/
theorem tableRow (i : Instr) : Laws.TableRow.Statement i := by
  cases i with
  | shiftA o => exact Laws.TableRow.shiftA o
  | xorLiteralB o => exact Laws.TableRow.xorLiteralB o
  | modB o => exact Laws.TableRow.modB o
  | jumpIfANonzero o => exact Laws.TableRow.jumpIfANonzero o
  | xorBC o => exact Laws.TableRow.xorBC o
  | emit o => exact Laws.TableRow.emit o
  | shiftB o => exact Laws.TableRow.shiftB o
  | shiftC o => exact Laws.TableRow.shiftC o

/-- A table word is read exactly where its two cells are an instruction. -/
theorem decodeTableWord_eq_some {nbits w : Nat} {i : Instr} :
    decodeTableWord nbits w = some i ↔
      decodePair (cellsOfWord nbits w).1 (cellsOfWord nbits w).2 = .ok i := by
  unfold decodeTableWord
  rw [decode_cons_cons]
  cases decodePair (cellsOfWord nbits w).1 (cellsOfWord nbits w).2 <;> simp

/-- The cells of a six-bit word are its quotient and remainder by 8 (R71). -/
theorem cellsOfWord_toNat {w : Nat} (hw : w < 64) :
    (cellsOfWord 8 w).1.toNat = w / 8 ∧ (cellsOfWord 8 w).2.toNat = w % 8 := by
  simp only [cellsOfWord, BitVec.toNat_ofNat]
  omega

/-- Every six-bit word is the word of a well-formed instruction, which the decoder reads from it (R71). -/
theorem exists_decodeTableWord {w : Nat} (hw : w < 64) :
    ∃ i : Instr, i.WellFormed ∧ instrWord i = w ∧ decodeTableWord 8 w = some i := by
  obtain ⟨h1, h2⟩ := cellsOfWord_toNat hw
  rcases decodePair_cases (cellsOfWord 8 w).1 (cellsOfWord 8 w).2 with
    ⟨h7, -⟩ | ⟨i, hop, hopd, -, ⟨-, hgt, -⟩ | ⟨-, e⟩⟩
  · omega
  · omega
  · refine ⟨i, ?_, ?_, decodeTableWord_eq_some.2 e⟩
    · rw [Instr.WellFormed, hopd]
      omega
    · rw [instrWord, hop, hopd]
      omega

/-- Settles O11: the word is that of an instruction, and the row is that instruction's. -/
theorem eachWordHasItsOneRow : Obligations.EachWordHasItsOneRow := by
  unfold Obligations.EachWordHasItsOneRow
  intro w hw
  obtain ⟨i, hwf, hword, hdecode⟩ := exists_decodeTableWord hw
  obtain ⟨r, hr, -, hmnemonic, hkind, -, hselects⟩ := tableRow i
  have hsel : r.selects w = true := hword ▸ hselects hwf
  exact ⟨r, hr, selects_iff_eq_of_selects hr hsel, i, hdecode, hmnemonic.symm, hkind.symm, hword⟩

/-- Settles O12: each pair is that of a well-formed instruction. -/
theorem wordsFromTheOpcodeMapDecode : Obligations.WordsFromTheOpcodeMapDecode := by
  have hread (i : Instr) (h : i.WellFormed) : decode [i.opcode, i.operand] = .ok (i, []) := decode_of_wellFormed h []
  exact ⟨hread (.shiftA 1) (by decide), hread (.xorLiteralB 3) (by decide), hread (.modB 4) (by decide),
    hread (.jumpIfANonzero 0) (by decide), hread (.xorBC 7) (by decide), hread (.emit 4) (by decide),
    hread (.shiftB 5) (by decide), hread (.shiftC 6) (by decide)⟩

/-- Settles O13, by counting over the 64 words. -/
theorem classCountsOfTheEncodings : Obligations.ClassCountsOfTheEncodings := by
  unfold Obligations.ClassCountsOfTheEncodings
  decide

end Sys2Proof
end

section
/-! PROOF. The combo resolver (R74, R94): which cells it answers with a value, and which with each of its faults. -/

namespace Sys2Proof.Machine

/-- A word is the number of a cell exactly if it is the cell's zero extension. -/
theorem eq_zext64_iff {v : Word} {c : Cell} : v = zext64 c ↔ v.toNat = c.toNat := by
  rw [← BitVec.toNat_inj, zext64_toNat]

/-- The resolver answers what the cell denotes (R74). -/
theorem combo_eq_ok {s : State} {sel : Cell} {v : Word} : combo s sel = .ok v ↔ ComboDenotes s sel v := by
  unfold ComboDenotes
  rcases combo_cases s sel with ⟨h, e⟩ | ⟨h, e⟩ | ⟨h, e⟩ | ⟨h, e⟩ | ⟨h, e⟩ | ⟨h, e⟩ <;> rw [e]
  · rw [Except.ok.injEq, eq_comm, eq_zext64_iff]
    omega
  · simp [h, eq_comm]
  · simp [h, eq_comm]
  · simp [h, eq_comm]
  · simp [h]
  · simp only [reduceCtorEq, false_iff]
    omega

/-- The resolver's two faults, each on its own cells (R94, R164). -/
theorem combo_eq_error {s : State} {sel : Cell} {f : Cause} :
    combo s sel = .error f ↔ (f = .reservedCombo ∧ sel.toNat = 7) ∨ (f = .illegalOperand ∧ 7 < sel.toNat) := by
  rcases combo_cases s sel with ⟨h, e⟩ | ⟨h, e⟩ | ⟨h, e⟩ | ⟨h, e⟩ | ⟨h, e⟩ | ⟨h, e⟩ <;> rw [e]
  · simp only [reduceCtorEq, false_iff]
    omega
  · simp [h]
  · simp [h]
  · simp [h]
  · simp [h, eq_comm]
  · simp [h, Nat.ne_of_gt h, eq_comm]

/-- A cell that denotes a value is below the reserved selector. -/
theorem ComboDenotes.le_six {s : State} {sel : Cell} {v : Word} (h : ComboDenotes s sel v) : sel.toNat ≤ 6 := by
  unfold ComboDenotes at h
  omega

/-- The value of a number selector is the number (R74). -/
theorem ComboDenotes.toNat_eq {s : State} {sel : Cell} {v : Word} (h : ComboDenotes s sel v) (h3 : sel.toNat ≤ 3) :
    v.toNat = sel.toNat := by
  unfold ComboDenotes at h
  omega

end Sys2Proof.Machine

namespace Sys2Proof

open Machine

/-- Settles O16, by the resolver's values and its faults. -/
theorem comboGivesTheDenotedValue : Obligations.ComboGivesTheDenotedValue := by
  unfold Obligations.ComboGivesTheDenotedValue
  intro s sel
  refine ⟨fun v => combo_eq_ok, ?_, ?_⟩
  · simp [combo_eq_error]
  · simp [combo_eq_error]

end Sys2Proof
end

section
/-! PROOF. Which fault the execution of an instruction raises (R161 to R166), in the order of R169, and that it does
nothing else then; R76's classes of encodings are read off it. -/

namespace Sys2Proof.Machine

/-- The fault that executing an instruction raises: the first in the order of R169 whose condition holds. -/
def execFault (i : Instr) (s : State) : Cause :=
  if i.operandKind ≠ .ignored ∧ 7 < i.operand.toNat then .illegalOperand
  else if i.operandKind = .combo ∧ i.operand.toNat = 7 then .reservedCombo
  else if i.opcode = 3 ∧ s.a ≠ 0 ∧ i.operand.toNat % 2 = 1 then .misalignedJump
  else if i.opcode = 5 ∧ s.outFull then .outputOverflow
  else .noFault

/-- The outcome `r` is that of an instruction which raises `f` in `s`: with `noFault` a next state whose fault record is
as it was, with any other cause the entry of that fault (R160). -/
def EndsWith (s : State) (f : Cause) (r : Result) : Prop :=
  (f = .noFault ∧ ∃ t, r = .next t ∧ t.cause = s.cause ∧ t.faultIp = s.faultIp) ∨
    (f ≠ .noFault ∧ r = .next (s.enterFault f))

/-- Without a fault the record stays. -/
theorem EndsWith.completes {s : State} {r : Result} (h : EndsWith s .noFault r) :
    ∃ t, r = .next t ∧ t.cause = s.cause ∧ t.faultIp = s.faultIp := by
  rcases h with ⟨-, h⟩ | ⟨h, -⟩
  · exact h
  · exact absurd rfl h

/-- With a fault the record is all that changes. -/
theorem EndsWith.faults {s : State} {f : Cause} {r : Result} (h : EndsWith s f r) (hf : f ≠ .noFault) :
    r = .next (s.enterFault f) := by
  rcases h with ⟨h, -⟩ | ⟨-, h⟩
  · exact absurd h hf
  · exact h

/-- Where no fault was recorded, the cause of the next state is the fault raised. -/
theorem EndsWith.cause_eq {s : State} {f : Cause} {r : Result} (h : EndsWith s f r) (hs : s.cause = .noFault) :
    ∃ t, r = .next t ∧ t.cause = f := by
  rcases h with ⟨rfl, t, e, hc, -⟩ | ⟨-, e⟩
  · exact ⟨t, e, hc.trans hs⟩
  · exact ⟨_, e, rfl⟩

/-- An operand cell above 7 comes before every other fault (R164, R169). -/
theorem execFault_of_operand_gt {i : Instr} (s : State) (hk : i.operandKind ≠ .ignored) (h : 7 < i.operand.toNat) :
    execFault i s = .illegalOperand := if_pos ⟨hk, h⟩

/-- The fault of the combo resolver is the instruction's. -/
theorem execFault_of_combo_error {i : Instr} {s : State} {f : Cause} (hk : i.operandKind = .combo)
    (h : combo s i.operand = .error f) : execFault i s = f := by
  rcases combo_eq_error.1 h with ⟨rfl, h7⟩ | ⟨rfl, h7⟩
  · simp [execFault, hk, h7]
  · exact execFault_of_operand_gt s (by simp [hk]) h7

/-- A combo instruction whose operand is resolved raises nothing, but for `emit` with `out` full (R166). -/
theorem execFault_of_combo_ok {i : Instr} {s : State} {v : Word} (hk : i.operandKind = .combo)
    (h : combo s i.operand = .ok v) :
    execFault i s = if i.opcode = 5 ∧ s.outFull then .outputOverflow else .noFault := by
  have h6 : i.operand.toNat ≤ 6 := (combo_eq_ok.1 h).le_six
  have h3 : i.opcode ≠ 3 := fun h3 => by
    rw [operandKind_eq_literal.2 (.inr h3)] at hk
    cases hk
  unfold execFault
  rw [if_neg fun h => by omega, if_neg fun h => by omega, if_neg fun h => h3 h.1]

/-- A combo instruction other than `emit` that has resolved its operand writes a register and advances (R97, R98). -/
theorem endsWith_of_combo_write {i : Instr} {s : State} {res : Result} {r : Reg} {F : Word → Word}
    (hk : i.operandKind = .combo) (h5 : i.opcode ≠ 5)
    (h : (∃ v, combo s i.operand = .ok v ∧ res = .next (s.setReg r (F v)).advance) ∨
      ∃ f, f ≠ .noFault ∧ combo s i.operand = .error f ∧ res = .next (s.enterFault f)) :
    EndsWith s (execFault i s) res := by
  rcases h with ⟨v, hv, e⟩ | ⟨f, hf, he, e⟩
  · rw [execFault_of_combo_ok hk hv, if_neg fun h => h5 h.1]
    exact .inl ⟨rfl, _, e, by simp⟩
  · rw [execFault_of_combo_error hk he]
    exact .inr ⟨hf, e⟩

/-- Every instruction raises the fault `execFault` names and no other. -/
theorem exec_endsWith (i : Instr) (s : State) : EndsWith s (execFault i s) (exec i s) := by
  cases i with
  | shiftA o => exact endsWith_of_combo_write rfl (by simp [Instr.opcode]) (shiftInto_cases .A o s)
  | shiftB o => exact endsWith_of_combo_write rfl (by simp [Instr.opcode]) (shiftInto_cases .B o s)
  | shiftC o => exact endsWith_of_combo_write rfl (by simp [Instr.opcode]) (shiftInto_cases .C o s)
  | modB o => exact endsWith_of_combo_write rfl (by simp [Instr.opcode]) (execModB_cases o s)
  | emit o =>
    rcases execEmit_cases o s with ⟨v, hv, hroom, e⟩ | ⟨v, hv, hfull, e⟩ | ⟨f, hf, he, e⟩
    · rw [execFault_of_combo_ok rfl hv, if_neg fun h => hroom h.2]
      exact .inl ⟨rfl, _, e, by simp⟩
    · rw [execFault_of_combo_ok rfl hv, if_pos ⟨rfl, hfull⟩]
      exact .inr ⟨by decide, e⟩
    · rw [execFault_of_combo_error rfl he]
      exact .inr ⟨hf, e⟩
  | xorBC o =>
    have hnone : execFault (.xorBC o) s = .noFault := by simp [execFault, Instr.operandKind, Instr.opcode]
    rw [hnone]
    exact .inl ⟨rfl, _, execXorBC_eq o s, by simp⟩
  | xorLiteralB o =>
    rcases execXorLiteralB_cases o s with ⟨ho, e⟩ | ⟨ho, e⟩
    · have hnone : execFault (.xorLiteralB o) s = .noFault := by
        simp [execFault, Instr.operandKind, Instr.opcode, Instr.operand, Nat.not_lt.2 ho]
      rw [hnone]
      exact .inl ⟨rfl, _, e, by simp⟩
    · rw [execFault_of_operand_gt (i := .xorLiteralB o) s (by simp [Instr.operandKind]) ho]
      exact .inr ⟨by decide, e⟩
  | jumpIfANonzero o =>
    have hjump (ho : o.toNat ≤ 7) : execFault (.jumpIfANonzero o) s =
        if s.a ≠ 0 ∧ o.toNat % 2 = 1 then .misalignedJump else .noFault := by
      simp [execFault, Instr.operandKind, Instr.opcode, Instr.operand, Nat.not_lt.2 ho]
    rcases execJumpIfANonzero_cases o s with ⟨ho, ha, e⟩ | ⟨ho, ha, heven, e⟩ | ⟨ho, ha, hodd, e⟩ | ⟨ho, e⟩
    · rw [hjump ho, if_neg fun h => h.1 ha]
      exact .inl ⟨rfl, _, e, by simp⟩
    · rw [hjump ho, if_neg (by omega)]
      exact .inl ⟨rfl, _, e, by simp⟩
    · rw [hjump ho, if_pos ⟨ha, hodd⟩]
      exact .inr ⟨by decide, e⟩
    · rw [execFault_of_operand_gt (i := .jumpIfANonzero o) s (by simp [Instr.operandKind]) ho]
      exact .inr ⟨by decide, e⟩

/-- An instruction whose fault condition holds does nothing but enter that fault (R160). -/
theorem exec_of_execFault {i : Instr} {s : State} {f : Cause} (h : execFault i s = f) (hf : f ≠ .noFault) :
    exec i s = .next (s.enterFault f) := by
  subst h
  exact (exec_endsWith i s).faults hf

/-! ### The classes of encodings -/

/-- Class (c) is opcode 3 with an odd operand (R76, R79). -/
theorem encodingClass_eq_oddJump {i : Instr} :
    i.encodingClass = .oddJump ↔ ∃ o : Cell, i = .jumpIfANonzero o ∧ o.toNat % 2 = 1 := by
  unfold Instr.encodingClass
  split
  · split <;> simp_all
  · split <;> simp_all

/-- Class (b) is a combo instruction with the reserved selector (R76, R77). -/
theorem encodingClass_eq_reservedForm {i : Instr} :
    i.encodingClass = .reservedForm ↔ i.operandKind = .combo ∧ i.operand.toNat = 7 := by
  unfold Instr.encodingClass
  split
  · split <;> simp [Instr.operandKind]
  · split <;> simp_all

/-- A form of class (a) raises nothing but OutputOverflow (R76). -/
theorem execFault_of_plain {i : Instr} {s : State} (hwf : i.WellFormed) (hc : i.encodingClass = .plain)
    (hroom : ¬ (i.opcode = 5 ∧ s.outFull)) : execFault i s = .noFault := by
  have hreserved : ¬ (i.operandKind = .combo ∧ i.operand.toNat = 7) := fun h => by
    rw [encodingClass_eq_reservedForm.2 h] at hc
    cases hc
  have hjump : ¬ (i.opcode = 3 ∧ s.a ≠ 0 ∧ i.operand.toNat % 2 = 1) := by
    rintro ⟨h3, -, hodd⟩
    cases i with
    | jumpIfANonzero o =>
      rw [encodingClass_eq_oddJump.2 ⟨o, rfl, hodd⟩] at hc
      cases hc
    | _ => simp [Instr.opcode] at h3
  unfold execFault
  rw [if_neg fun h => Nat.not_lt.2 hwf h.2, if_neg hreserved, if_neg hjump, if_neg hroom]

end Sys2Proof.Machine

namespace Sys2Proof

open Machine

/-- Settles O17: the range of the operand cell is the first condition that is checked. -/
theorem operandCellAboveSevenFaults : Obligations.OperandCellAboveSevenFaults := by
  unfold Obligations.OperandCellAboveSevenFaults
  intro i s hk h
  exact exec_of_execFault (execFault_of_operand_gt s hk h) (by decide)

/-- Settles O24, by the four outcomes of the jump, of which the operand cell's range excludes the last. -/
theorem jumpGoesToItsLiteralWhenANonzero : Obligations.JumpGoesToItsLiteralWhenANonzero := by
  unfold Obligations.JumpGoesToItsLiteralWhenANonzero
  intro s sel hsel
  rcases execJumpIfANonzero_cases sel s with ⟨-, ha, e⟩ | ⟨-, ha, heven, e⟩ | ⟨-, ha, hodd, e⟩ | ⟨hgt, -⟩
  · exact ⟨fun _ => e, fun h => absurd ha h, fun h => absurd ha h⟩
  · exact ⟨fun h => absurd h ha, fun _ _ => e, fun _ hodd => by omega⟩
  · exact ⟨fun h => absurd h ha, fun _ heven => by omega, fun _ _ => e⟩
  · omega

/-- Settles O14, by the fault that each class raises. -/
theorem encodingClassDecidesTheFault : Obligations.EncodingClassDecidesTheFault := by
  unfold Obligations.EncodingClassDecidesTheFault
  intro i s hwf
  refine ⟨fun hc hroom => ?plain, fun hc => ?reserved, fun hc => ?oddJump⟩
  case plain =>
    have h := exec_endsWith i s
    rw [execFault_of_plain hwf hc hroom] at h
    exact h.completes
  case reserved =>
    obtain ⟨hk, h7⟩ := encodingClass_eq_reservedForm.1 hc
    have he : combo s i.operand = .error .reservedCombo := combo_eq_error.2 (.inl ⟨rfl, h7⟩)
    exact exec_of_execFault (execFault_of_combo_error hk he) (by decide)
  case oddJump =>
    obtain ⟨o, rfl, hodd⟩ := encodingClass_eq_oddJump.1 hc
    obtain ⟨hzero, -, hfault⟩ := jumpGoesToItsLiteralWhenANonzero s o hwf
    split
    next ha => exact hzero ha
    next ha => exact hfault ha hodd

end Sys2Proof
end

section
/-! PROOF. The step (R90): which states have one, which instruction it runs, and which fault it raises (R161, R169). -/

namespace Sys2Proof.Machine

/-- A running state executes what fetch answers (R90). -/
theorem step_of_fetch_ok {s : State} {i : Instr} (hs : s.status = .run) (h : fetchInstr s = .ok i) :
    step s = exec i s := by
  unfold step
  rw [hs, h]

/-- A running state enters the fault of fetch or decode (R90, R93). -/
theorem step_of_fetch_error {s : State} {f : Cause} (hs : s.status = .run) (h : fetchInstr s = .error f) :
    step s = .next (s.enterFault f) := by
  unfold step
  rw [hs, h]
  rfl

/-- Fetch answers what the two cells at `ip` decode to (R92, R93). -/
theorem fetchInstr_eq_ok {s : State} {i : Instr} (h : s.ip + 2 ≤ s.len)
    (hd : decodePair (s.prog.read s.ip) (s.prog.read (s.ip + 1)) = .ok i) : fetchInstr s = .ok i := by
  unfold fetchInstr
  rw [memRead_two h]
  simp only [decode_cons_cons, hd]

/-- With both cells at `ip` inside the program a state without a fault runs what they decode to (R90). -/
theorem step_of_decodePair {s : State} {i : Instr} (hc : s.cause = .noFault) (h : s.ip + 2 ≤ s.len)
    (hd : decodePair (s.prog.read s.ip) (s.prog.read (s.ip + 1)) = .ok i) : step s = exec i s :=
  step_of_fetch_ok (State.status_eq_run.2 ⟨hc, by omega⟩) (fetchInstr_eq_ok h hd)

/-- The opcodes whose operand is a combo (R72), by number. -/
theorem operandKind_eq_combo {i : Instr} : i.operandKind = .combo ↔ i.opcode.toNat ∈ [0, 2, 5, 6, 7] := by
  cases i with
  | shiftA o => exact iff_of_true rfl (by simp [Instr.opcode])
  | modB o => exact iff_of_true rfl (by simp [Instr.opcode])
  | emit o => exact iff_of_true rfl (by simp [Instr.opcode])
  | shiftB o => exact iff_of_true rfl (by simp [Instr.opcode])
  | shiftC o => exact iff_of_true rfl (by simp [Instr.opcode])
  | _ => simp [Instr.operandKind, Instr.opcode]

/-- The fault of an instruction, spelled over the numbers of its two cells as R161's table has it. -/
theorem execFault_eq (i : Instr) (s : State) :
    execFault i s =
      if i.opcode.toNat ≠ 4 ∧ 7 < i.operand.toNat then .illegalOperand
      else if i.opcode.toNat ∈ [0, 2, 5, 6, 7] ∧ i.operand.toNat = 7 then .reservedCombo
      else if i.opcode.toNat = 3 ∧ s.a ≠ 0 ∧ i.operand.toNat % 2 = 1 then .misalignedJump
      else if i.opcode.toNat = 5 ∧ s.outFull then .outputOverflow
      else .noFault := by
  have h3 : i.opcode = 3 ↔ i.opcode.toNat = 3 := BitVec.toNat_inj.symm
  have h5 : i.opcode = 5 ↔ i.opcode.toNat = 5 := BitVec.toNat_inj.symm
  simp only [execFault, ne_eq, operandKind_eq_ignored, operandKind_eq_combo, cell_eq_four_iff, h3, h5]

/-- Where fetch answers an instruction the expected fault is that of the instruction. -/
theorem expectedFault_of_fetch_ok {s : State} {i : Instr} (h : fetchInstr s = .ok i) :
    expectedFault s = execFault i s := by
  rcases fetchInstr_cases s with ⟨-, e⟩ | ⟨-, -, e⟩ | ⟨hl, h7, j, hop, hopd, ⟨-, -, e⟩ | ⟨-, e⟩⟩ <;> rw [e] at h
  · cases h
  · cases h
  · cases h
  · cases h
    unfold expectedFault
    rw [execFault_eq, hop, hopd, if_neg (Nat.not_lt.2 hl), if_neg (Nat.not_lt.2 h7)]

/-- Where fetch or decode faults, that is the expected fault. -/
theorem expectedFault_of_fetch_error {s : State} {f : Cause} (h : fetchInstr s = .error f) : expectedFault s = f := by
  unfold expectedFault
  rcases fetchInstr_cases s with ⟨hl, e⟩ | ⟨hl, h7, e⟩ | ⟨hl, h7, j, hop, hopd, ⟨h4, hgt, e⟩ | ⟨-, e⟩⟩ <;> rw [e] at h
  · cases h
    exact if_pos hl
  · cases h
    rw [if_neg (Nat.not_lt.2 hl)]
    exact if_pos h7
  · cases h
    rw [ne_eq, hop, cell_eq_four_iff] at h4
    rw [hopd] at hgt
    rw [if_neg (Nat.not_lt.2 hl), if_neg (Nat.not_lt.2 h7)]
    exact if_pos ⟨h4, hgt⟩
  · cases h

/-- The step from a running state answers a next state with the expected fault (R160, R169). -/
theorem exists_step_cause_eq {s : State} (hc : s.cause = .noFault) (hl : s.ip < s.len) :
    ∃ t, step s = .next t ∧ t.cause = expectedFault s := by
  have hrun := State.status_eq_run.2 ⟨hc, hl⟩
  cases h : fetchInstr s with
  | ok i =>
    rw [step_of_fetch_ok hrun h, expectedFault_of_fetch_ok h]
    exact (exec_endsWith i s).cause_eq hc
  | error f =>
    rw [step_of_fetch_error hrun h, expectedFault_of_fetch_error h]
    exact ⟨_, rfl, rfl⟩

/-- Every next state has the expected fault recorded. -/
theorem cause_eq_of_step {s t : State} (h : step s = .next t) : t.cause = expectedFault s := by
  obtain ⟨hc, hl, -⟩ := step_next_cases h
  obtain ⟨u, hu, hcause⟩ := exists_step_cause_eq hc hl
  cases h.symm.trans hu
  exact hcause

/-- A next state with a cause recorded is a fault entry (R160, R167). -/
theorem eq_enterFault_of_step {s t : State} (h : step s = .next t) (ht : t.cause ≠ .noFault) :
    t = s.enterFault t.cause := by
  obtain ⟨hc, -, ⟨f, -, rfl⟩ | ⟨r, v, rfl⟩ | ⟨d, -, rfl⟩ | ⟨k, -, -, rfl⟩ | rfl⟩ := step_next_cases h
  · rfl
  · exact absurd (by simpa using hc) ht
  · exact absurd hc ht
  · exact absurd hc ht
  · exact absurd hc ht

/-- From a faulted state no step is defined (R168). -/
theorem step_of_fault {s : State} (h : s.cause ≠ .noFault) : step s = .fault .runFaulted := by
  unfold step
  rw [State.status_eq_fault.2 h]

/-- From a halted state no step is defined (R91). -/
theorem step_of_halt {s : State} (hc : s.cause = .noFault) (hl : s.len ≤ s.ip) : step s = .fault .runHalted := by
  unfold step
  rw [State.status_eq_halt.2 ⟨hc, hl⟩]

end Sys2Proof.Machine

namespace Sys2Proof

open Machine

/-- Settles O33, by the fault of fetch and decode or of the instruction fetched. -/
theorem stepRaisesTheFirstFaultInPriority : Obligations.StepRaisesTheFirstFaultInPriority := by
  unfold Obligations.StepRaisesTheFirstFaultInPriority
  intro s hc hl
  exact exists_step_cause_eq hc hl

/-- Settles O32, by the fault entry that such a step is. -/
theorem faultEntryChangesOnlyTheRecord : Obligations.FaultEntryChangesOnlyTheRecord := by
  unfold Obligations.FaultEntryChangesOnlyTheRecord
  intro s t h ht
  exact ⟨eq_enterFault_of_step h ht, State.status_eq_fault.2 ht, step_of_fault ht⟩

/-- Settles O29, by what fetch answers. -/
theorem stepRunsTheDecodedInstruction : Obligations.StepRunsTheDecodedInstruction := by
  unfold Obligations.StepRunsTheDecodedInstruction
  intro s i rest hs hl hd
  obtain ⟨hpair, -⟩ := decode_cons_cons_eq_ok.1 hd
  exact step_of_fetch_ok hs (fetchInstr_eq_ok hl hpair)

/-- Settles O30: the two cells written are the ones that fetch reads. -/
theorem placedWordIsRunNext : Obligations.PlacedWordIsRunNext := by
  unfold Obligations.PlacedWordIsRunNext
  intro s nbits w i hprog hword
  have hfirst : (s.withFetchWord nbits w).prog.read s.ip = (cellsOfWord nbits w).1 := by
    rw [State.withFetchWord, State.placeAtIp_prog, Memory.read_write_other _ (by omega),
      Memory.read_write_same _ _ hprog]
  have hsecond : (s.withFetchWord nbits w).prog.read (s.ip + 1) = (cellsOfWord nbits w).2 :=
    Memory.read_write_same _ _ (Memory.write_wf _ _ hprog)
  refine ⟨step_of_decodePair rfl (le_max_right ..) ?decoded, fun r => by cases r <;> rfl, rfl, rfl, rfl,
    fun k h0 h1 => ?others⟩
  case decoded =>
    rw [show (s.withFetchWord nbits w).ip = s.ip from rfl, hfirst, hsecond]
    exact decodeTableWord_eq_some.1 hword
  case others =>
    rw [State.withFetchWord, State.placeAtIp_prog, Memory.read_write_other _ h1, Memory.read_write_other _ h0]

/-- Settles O31, one clause per status. -/
theorem exactlyTheRunningStatesStep : Obligations.ExactlyTheRunningStatesStep := by
  unfold Obligations.ExactlyTheRunningStatesStep
  intro s
  refine ⟨fun hc hl => ?_, step_of_halt, step_of_fault⟩
  obtain ⟨t, h, -⟩ := exists_step_cause_eq hc hl
  exact ⟨t, h⟩

end Sys2Proof
end

section
/-! PROOF. The invariant of launched machines (R29 to R32, R51): the reset and every launch meet it, every step keeps
it; and what grows or stays along every run. -/

namespace Sys2Proof.Machine

/-! ### A state that meets the invariant -/

/-- Every cell that fetch can read is in 0..7 (R51). -/
theorem State.Inv.read_le {s : State} (h : s.Inv) (k : Nat) : (s.prog.read k).toNat ≤ 7 := by
  rcases Memory.read_mem s.prog k with e | hk
  · rw [e]
    decide
  · exact (h.progInside _ hk).2

/-- Where `ip` lies inside the program, so do both cells of the instruction: `ip` and `L` are even. -/
theorem State.Inv.ip_add_two_le {s : State} (h : s.Inv) (hl : s.ip < s.len) : s.ip + 2 ≤ s.len := by
  have hip := h.ipEven
  have hlen := h.lenEven
  omega

/-- Under the invariant a step expects none of the faults of fetch and decode (R164, R165). -/
theorem State.Inv.expectedFault_reachable {s : State} (h : s.Inv) (hl : s.ip < s.len) :
    expectedFault s = .noFault ∨ expectedFault s = .reservedCombo ∨ expectedFault s = .misalignedJump ∨
      expectedFault s = .outputOverflow := by
  have h2 := h.ip_add_two_le hl
  have hop := h.read_le s.ip
  have hopd := h.read_le (s.ip + 1)
  unfold expectedFault
  rw [if_neg (by omega), if_neg (by omega), if_neg (by omega)]
  split
  · simp
  · split
    · simp
    · split <;> simp

/-- An instruction that completes keeps the invariant if it moves `ip` within its bounds and `out` within OUT_CAP: it
touches neither the program nor the record. -/
theorem State.Inv.of_completes {s t : State} (h : s.Inv) (hc : s.cause = .noFault)
    (hprog : t.prog = s.prog ∧ t.len = s.len ∧ t.params = s.params)
    (hrecord : t.cause = s.cause ∧ t.faultIp = s.faultIp)
    (heven : t.ip % 2 = 0) (hbound : t.ip ≤ max s.len 6)
    (hout : ∀ cap ∈ s.params.outCap, t.out.length ≤ cap) : t.Inv := by
  obtain ⟨hp, hl, hpar⟩ := hprog
  obtain ⟨hcause, hfip⟩ := hrecord
  have hnone : t.cause = .noFault := hcause.trans hc
  exact
    { progCanonical := hp ▸ h.progCanonical
      progInside := by rw [hp, hl]; exact h.progInside
      lenEven := hl ▸ h.lenEven
      paramsValid := hpar ▸ h.paramsValid
      lenAdmitted := by rw [hpar, hl]; exact h.lenAdmitted
      ipEven := heven
      ipBound := hl ▸ hbound
      outFits := by rw [hpar]; exact hout
      recordClear := fun _ => hfip.trans (h.recordClear hc)
      recordAtIp := fun hne => absurd hnone hne
      recordReachable := .inl hnone }

/-- The entry of a reachable fault inside the program keeps the invariant. -/
theorem State.Inv.enterFault {s : State} (h : s.Inv) (hl : s.ip < s.len) {f : Cause} (hf : f ≠ .noFault)
    (hreach : f = .noFault ∨ f = .reservedCombo ∨ f = .misalignedJump ∨ f = .outputOverflow) :
    (s.enterFault f).Inv :=
  { progCanonical := h.progCanonical
    progInside := h.progInside
    lenEven := h.lenEven
    paramsValid := h.paramsValid
    lenAdmitted := h.lenAdmitted
    ipEven := h.ipEven
    ipBound := h.ipBound
    outFits := h.outFits
    recordClear := fun hnone => absurd hnone hf
    recordAtIp := fun _ => ⟨rfl, hl⟩
    recordReachable := hreach }

/-- Every step keeps the invariant. -/
theorem State.Inv.step {s t : State} (h : s.Inv) (hs : Machine.step s = .next t) : t.Inv := by
  have hcause := cause_eq_of_step hs
  have hprog := step_keeps_program hs
  obtain ⟨hc, hl, hcases⟩ := step_next_cases hs
  have h2 := h.ip_add_two_le hl
  have hnext : (s.ip + 2) % 2 = 0 := by have := h.ipEven; omega
  have hbound : s.ip + 2 ≤ max s.len 6 := le_max_of_le_left h2
  rcases hcases with ⟨f, hf, rfl⟩ | ⟨r, v, rfl⟩ | ⟨d, hroom, rfl⟩ | ⟨k, heven, hk, rfl⟩ | rfl
  · refine h.enterFault hl hf ?_
    rw [State.enterFault_cause] at hcause
    exact hcause ▸ h.expectedFault_reachable hl
  · exact h.of_completes hc hprog (by simp) (by simpa using hnext) (by simpa using hbound) (by simpa using h.outFits)
  · refine h.of_completes hc hprog ⟨rfl, rfl⟩ hnext hbound fun cap hcap => ?_
    have hlt : s.out.length < cap := by
      by_contra hge
      exact hroom (outFull_iff.2 ⟨cap, hcap, Nat.not_lt.1 hge⟩)
    simpa using hlt
  · refine h.of_completes hc hprog ⟨rfl, rfl⟩ heven ?_ h.outFits
    rw [State.setIp_ip]
    omega
  · exact h.of_completes hc hprog ⟨rfl, rfl⟩ hnext hbound h.outFits

/-- The invariant holds along every run. -/
theorem State.Inv.reaches {s t : State} (h : s.Inv) (hr : Reaches s t) : t.Inv :=
  hr.invariant h fun _ _ hx hstep => hx.step hstep

/-- Under the invariant `ip` fits a finite IP_W (R4, R30). -/
theorem State.Inv.ip_lt_two_pow {s : State} (h : s.Inv) {w : Nat} (hw : w ∈ s.params.ipWidth) : s.ip < 2 ^ w := by
  have hw' : s.params.ipWidth = some w := hw
  have hvalid := h.paramsValid
  have hadmitted := h.lenAdmitted
  simp only [Params.valid, Params.admits, hw', decide_eq_true_eq] at hvalid hadmitted
  have hpow : 2 ^ 4 ≤ 2 ^ w := Nat.pow_le_pow_right (by decide) hvalid
  have hbound := h.ipBound
  omega

/-! ### Launches -/

/-- A cell as the host gives it keeps its value in the byte that holds it. -/
theorem toNat_ofInt_of_isCell {v : Int} (h : isCell v) : ((BitVec.ofInt 8 v).toNat : Int) = v := by
  simp only [isCell, decide_eq_true_eq] at h
  simp only [BitVec.toNat_ofInt]
  omega

/-- The search for a bad cell is the library's search for the first index with a property. -/
theorem firstBadCell_eq_findIdx? (k : Nat) (vs : List Int) :
    firstBadCell k vs = (vs.findIdx? fun v => !isCell v).map (k + ·) := by
  induction vs generalizing k with
  | nil => rfl
  | cons v rest ih =>
    unfold firstBadCell
    rw [List.findIdx?_cons]
    cases isCell v with
    | true => simp [ih, Function.comp_def, Nat.add_assoc, Nat.add_comm 1]
    | false => simp

/-- No element is out of range exactly if all of them are cells. -/
theorem firstBadCell_eq_none {vs : List Int} : firstBadCell 0 vs = none ↔ ∀ v ∈ vs, isCell v := by
  simp [firstBadCell_eq_findIdx?]

/-- The lowest bad index: the element there is no cell, and every element before it is one. -/
theorem firstBadCell_eq_some {j : Nat} {vs : List Int} :
    firstBadCell 0 vs = some j ↔
      (∃ v, vs[j]? = some v ∧ ¬ isCell v) ∧ ∀ m < j, ∀ v, vs[m]? = some v → isCell v := by
  simp only [firstBadCell_eq_findIdx?, Nat.zero_add, Option.map_id', List.findIdx?_eq_some_iff_getElem]
  constructor
  · rintro ⟨hj, hbad, hbefore⟩
    refine ⟨⟨vs[j], List.getElem?_eq_getElem hj, by simpa using hbad⟩, fun m hm v hv => ?_⟩
    obtain ⟨hlt, rfl⟩ := List.getElem?_eq_some_iff.1 hv
    simpa using hbefore m hm
  · rintro ⟨⟨v, hv, hbad⟩, hbefore⟩
    obtain ⟨hj, rfl⟩ := List.getElem?_eq_some_iff.1 hv
    refine ⟨hj, by simpa using hbad, fun m hm => ?_⟩
    simpa using hbefore m hm _ (List.getElem?_eq_getElem (hm.trans hj))

/-- The register is the first of A, B, C whose launch value is out of range. -/
def FirstOutOfRange (i : LaunchInput) : Reg → Prop
  | .A => ¬ isInt64 i.a0
  | .B => isInt64 i.a0 ∧ ¬ isInt64 i.b0
  | .C => isInt64 i.a0 ∧ isInt64 i.b0 ∧ ¬ isInt64 i.c0

/-- The register that a launch names is the first out of range (R191). -/
theorem firstBadReg_eq_some {i : LaunchInput} {r : Reg} : firstBadReg i = some r ↔ FirstOutOfRange i r := by
  unfold firstBadReg
  by_cases ha : isInt64 i.a0
  · by_cases hb : isInt64 i.b0
    · by_cases hc : isInt64 i.c0 <;> cases r <;> simp [FirstOutOfRange, ha, hb, hc]
    · cases r <;> simp [FirstOutOfRange, ha, hb]
  · cases r <;> simp [FirstOutOfRange, ha]

/-- No register is out of range exactly if all three values are in it. -/
theorem firstBadReg_eq_none {i : LaunchInput} :
    firstBadReg i = none ↔ isInt64 i.a0 ∧ isInt64 i.b0 ∧ isInt64 i.c0 := by
  unfold firstBadReg
  by_cases ha : isInt64 i.a0
  · by_cases hb : isInt64 i.b0
    · simp [ha, hb]
    · simp [ha, hb]
  · simp [ha]

/-- The checks of a launch, whole, in the order of R191. -/
theorem launchRefusal_cases (p : Params) (i : LaunchInput) :
    (i.prog.length % 2 = 1 ∧ launchRefusal p i = some .oddLength) ∨
      (i.prog.length % 2 = 0 ∧
        ((∃ k, firstBadCell 0 i.prog = some k ∧ launchRefusal p i = some (.cellOutOfRange k)) ∨
          (firstBadCell 0 i.prog = none ∧
            ((p.admits i.prog.length = false ∧ launchRefusal p i = some .programTooLong) ∨
              (p.admits i.prog.length = true ∧
                ((∃ r, firstBadReg i = some r ∧ launchRefusal p i = some (.registerOutOfRange r)) ∨
                  (firstBadReg i = none ∧ launchRefusal p i = none))))))) := by
  unfold launchRefusal
  rcases Nat.mod_two_eq_zero_or_one i.prog.length with heven | hodd
  · refine .inr ⟨heven, ?_⟩
    rw [if_neg (by omega)]
    cases firstBadCell 0 i.prog with
    | some k => exact .inl ⟨k, rfl, rfl⟩
    | none =>
      refine .inr ⟨rfl, ?_⟩
      cases p.admits i.prog.length with
      | false => exact .inl ⟨rfl, rfl⟩
      | true =>
        refine .inr ⟨rfl, ?_⟩
        cases firstBadReg i with
        | some r => exact .inl ⟨r, rfl, rfl⟩
        | none => exact .inr ⟨rfl, rfl⟩
  · exact .inl ⟨hodd, if_pos hodd⟩

/-- A launch is refused with the reason that its checks give. -/
theorem launch_eq_error {p : Params} {i : LaunchInput} {r : LaunchRefusal} :
    launch p i = .error r ↔ launchRefusal p i = some r := by
  unfold launch
  cases launchRefusal p i <;> simp

/-- A launch answers a state exactly if its checks pass, and then R36's. -/
theorem launch_eq_ok {p : Params} {i : LaunchInput} {s : State} :
    launch p i = .ok s ↔ launchRefusal p i = none ∧ launchState p i = s := by
  unfold launch
  cases launchRefusal p i <;> simp

/-- The reason of a refusal, each with the checks before it (R191). -/
theorem launchRefusal_eq_some {p : Params} {i : LaunchInput} {r : LaunchRefusal} :
    launchRefusal p i = some r ↔
      (r = .oddLength ∧ i.prog.length % 2 = 1) ∨
        (i.prog.length % 2 = 0 ∧
          ((∃ k, r = .cellOutOfRange k ∧ firstBadCell 0 i.prog = some k) ∨
            (firstBadCell 0 i.prog = none ∧
              ((r = .programTooLong ∧ p.admits i.prog.length = false) ∨
                (p.admits i.prog.length = true ∧ ∃ q, r = .registerOutOfRange q ∧ firstBadReg i = some q))))) := by
  rw [eq_comm (a := launchRefusal p i)]
  rcases launchRefusal_cases p i with
    ⟨ho, e⟩ | ⟨he, ⟨k, hk, e⟩ | ⟨hc, ⟨ha, e⟩ | ⟨ha, ⟨q, hq, e⟩ | ⟨hq, e⟩⟩⟩⟩ <;> simp [*]

/-- A register refuses a launch where every check before it passes and it is the first out of range. -/
theorem launch_eq_registerOutOfRange {p : Params} {i : LaunchInput} {r : Reg} :
    launch p i = .error (.registerOutOfRange r) ↔
      i.prog.length % 2 = 0 ∧ (∀ v ∈ i.prog, isCell v) ∧ p.admits i.prog.length ∧ FirstOutOfRange i r := by
  rw [launch_eq_error, launchRefusal_eq_some, firstBadCell_eq_none]
  simp [firstBadReg_eq_some]

/-- The checks pass exactly if each of them does (R191). -/
theorem launchRefusal_eq_none {p : Params} {i : LaunchInput} :
    launchRefusal p i = none ↔
      i.prog.length % 2 = 0 ∧ (∀ v ∈ i.prog, isCell v) ∧ p.admits i.prog.length ∧
        isInt64 i.a0 ∧ isInt64 i.b0 ∧ isInt64 i.c0 := by
  rw [← firstBadCell_eq_none, ← firstBadReg_eq_none]
  rcases launchRefusal_cases p i with
    ⟨ho, e⟩ | ⟨he, ⟨k, hk, e⟩ | ⟨hc, ⟨ha, e⟩ | ⟨ha, ⟨r, hr, e⟩ | ⟨hr, e⟩⟩⟩⟩ <;> simp [*]

/-- A launched program reads as the host gave it (R190). -/
theorem launchState_read {p : Params} {i : LaunchInput} (hcells : ∀ v ∈ i.prog, isCell v) {k : Nat} {v : Int}
    (hk : i.prog[k]? = some v) : (((launchState p i).prog.read k).toNat : Int) = v := by
  have hread : (launchState p i).prog.read k = BitVec.ofInt 8 v := by
    have h := Memory.read_load 0 (i.prog.map (BitVec.ofInt 8)) k
    rw [Nat.zero_add] at h
    simpa [launchState, hk] using h
  rw [hread]
  exact toNat_ofInt_of_isCell (hcells v (List.mem_of_getElem? hk))

/-- A launch state meets the invariant: its program is loaded cell by cell, and the rest is R36's constants. -/
theorem launchState_inv {p : Params} {i : LaunchInput} (hp : p.valid) (heven : i.prog.length % 2 = 0)
    (hcells : ∀ v ∈ i.prog, isCell v) (hadmits : p.admits i.prog.length) : (launchState p i).Inv where
  progCanonical := Memory.load_wf _ _
  progInside e he := by
    obtain ⟨-, hlt, hmem⟩ := Memory.load_mem he
    obtain ⟨v, hv, hcell⟩ := List.mem_map.1 hmem
    have hnat := toNat_ofInt_of_isCell (hcells v hv)
    have hrange := hcells v hv
    simp only [isCell, decide_eq_true_eq] at hrange
    refine ⟨by simpa [launchState] using hlt, ?_⟩
    rw [← hcell]
    omega
  lenEven := heven
  paramsValid := hp
  lenAdmitted := hadmits
  ipEven := rfl
  ipBound := Nat.zero_le _
  outFits _ _ := Nat.zero_le _
  recordClear _ := rfl
  recordAtIp h := absurd rfl h
  recordReachable := .inl rfl

/-- A launch on valid parameters that is not refused answers a state that meets the invariant. -/
theorem launch_inv {p : Params} {i : LaunchInput} {s : State} (hp : p.valid) (h : launch p i = .ok s) : s.Inv := by
  obtain ⟨hnone, rfl⟩ := launch_eq_ok.1 h
  obtain ⟨heven, hcells, hadmits, -⟩ := launchRefusal_eq_none.1 hnone
  exact launchState_inv hp heven hcells hadmits

/-- State.reset is a launch on parameters without bounds (log entries 1 and 2). -/
theorem launch_empty_eq_reset : launch ⟨none, none⟩ ⟨[], 0, 0, 0⟩ = .ok State.reset :=
  launch_eq_ok.2 ⟨launchRefusal_eq_none.2 ⟨rfl, by simp, rfl, by decide, by decide, by decide⟩, rfl⟩

/-- A 64-bit signed integer is the signed value of the word it is put in (R8). -/
theorem toInt_ofInt_of_isInt64 {v : Int} (h : isInt64 v) : (BitVec.ofInt 64 v).toInt = v := by
  simp only [isInt64, decide_eq_true_eq] at h
  rw [BitVec.toInt_ofInt]
  exact Int.bmod_eq_of_le_mul_two (by omega) (by omega)

/-! ### What grows and what stays along a run -/

/-- A step appends one digit at most (R31, R64). -/
theorem step_out {s t : State} (h : step s = .next t) : t.out = s.out ∨ ∃ d, t.out = s.out ++ [d] := by
  obtain ⟨-, -, ⟨f, -, rfl⟩ | ⟨r, v, rfl⟩ | ⟨d, -, rfl⟩ | ⟨k, -, -, rfl⟩ | rfl⟩ := step_next_cases h
  · exact .inl rfl
  · exact .inl (by simp)
  · exact .inr ⟨d, rfl⟩
  · exact .inl rfl
  · exact .inl rfl

/-- No run touches the program or the parameters (R22, R61). -/
theorem Reaches.keeps_program {s t : State} (h : Reaches s t) :
    t.prog = s.prog ∧ t.len = s.len ∧ t.params = s.params := by
  refine h.invariant (P := fun x => x.prog = s.prog ∧ x.len = s.len ∧ x.params = s.params) ⟨rfl, rfl, rfl⟩
    fun x y ⟨hprog, hlen, hparams⟩ hstep => ?_
  obtain ⟨hprog', hlen', hparams'⟩ := step_keeps_program hstep
  exact ⟨hprog'.trans hprog, hlen'.trans hlen, hparams'.trans hparams⟩

/-- Along a run `out` only grows (R31). -/
theorem Reaches.out_grows {s t : State} (h : Reaches s t) : s.out <+: t.out := by
  refine h.invariant (P := fun x => s.out <+: x.out) ⟨[], List.append_nil _⟩ fun x y hx hstep => hx.trans ?_
  rcases step_out hstep with e | ⟨d, e⟩ <;> rw [e]
  exact ⟨[d], rfl⟩

end Sys2Proof.Machine

namespace Sys2Proof

open Machine

/-- Settles O36, by the fault that a step expects under the invariant and by what each completing step moves. -/
theorem everyStepKeepsTheInvariant : Obligations.EveryStepKeepsTheInvariant := by
  unfold Obligations.EveryStepKeepsTheInvariant
  intro s t h hs
  exact h.step hs

/-- Settles O35, by the launch state's fields. -/
theorem launchMeetsTheInvariant : Obligations.LaunchMeetsTheInvariant := by
  unfold Obligations.LaunchMeetsTheInvariant
  intro p i s hp h
  exact launch_inv hp h

/-- Settles O34: the reset state is that of a launch. -/
theorem resetMeetsTheInvariant : Obligations.ResetMeetsTheInvariant := by
  unfold Obligations.ResetMeetsTheInvariant
  exact launch_inv rfl launch_empty_eq_reset

/-- Settles O47, by the checks of the empty launch. -/
theorem resetIsTheEmptyLaunch : Obligations.ResetIsTheEmptyLaunch := by
  unfold Obligations.ResetIsTheEmptyLaunch
  exact ⟨launch_empty_eq_reset, rfl⟩

/-- Settles O37, by the invariant along the run. -/
theorem noRunReachesADecodeFault : Obligations.NoRunReachesADecodeFault := by
  unfold Obligations.NoRunReachesADecodeFault
  intro p i s t hp h hr
  have hinv := (launch_inv hp h).reaches hr
  obtain ⟨-, rfl⟩ := launch_eq_ok.1 h
  obtain ⟨-, -, hparams⟩ := hr.keeps_program
  refine ⟨hinv.ipEven, hinv.ipBound, fun w hw => hinv.ip_lt_two_pow (by rw [hparams]; exact hw), ?_⟩
  rcases hinv.recordReachable with e | e | e | e <;> simp [e]

/-- Settles O38, by what a step appends, and the program kept by every step. -/
theorem outputGrowsAndProgramStays : Obligations.OutputGrowsAndProgramStays := by
  unfold Obligations.OutputGrowsAndProgramStays
  exact ⟨fun s t h => ⟨h.out_grows, h.keeps_program⟩, fun s t h => step_out h⟩

/-- Settles O45, by the reasons of a refusal, each after the checks before it. -/
theorem launchRefusalsInOrder : Obligations.LaunchRefusalsInOrder := by
  unfold Obligations.LaunchRefusalsInOrder
  intro p i
  refine ⟨?oddLength, fun k => ?cell, ?tooLong, fun r => launch_eq_registerOutOfRange⟩ <;>
    rw [launch_eq_error, launchRefusal_eq_some]
  case oddLength => simp
  case cell => simp [firstBadCell_eq_some]
  case tooLong => simp [firstBadCell_eq_none]

/-- Settles O46, by the fields of the launch state and the reading of a loaded program. -/
theorem launchCreatesTheTabledState : Obligations.LaunchCreatesTheTabledState := by
  unfold Obligations.LaunchCreatesTheTabledState
  intro p i heven hcells hadmits ha hb hc
  refine ⟨launchState p i, launch_eq_ok.2 ⟨launchRefusal_eq_none.2 ⟨heven, hcells, hadmits, ha, hb, hc⟩, rfl⟩,
    toInt_ofInt_of_isInt64 ha, toInt_ofInt_of_isInt64 hb, toInt_ofInt_of_isInt64 hc, rfl, rfl, ?_, rfl, rfl, rfl,
    rfl, fun k v hk => launchState_read hcells hk⟩
  split
  next h => exact State.status_eq_run.2 ⟨rfl, h⟩
  next h => exact State.status_eq_halt.2 ⟨rfl, Nat.not_lt.1 h⟩

end Sys2Proof
end

section
/-! PROOF. The arithmetic primitives (R9 to R12): `asr` as floor division and as a move of bits, `emod` as the low bits,
`xor64` on signed values. -/

namespace Sys2Proof.Machine

/-! ### `asr` -/

/-- Over the integers `asr` is the floor quotient by the power of two (R9). -/
theorem asr_toInt (a : Word) (n : Nat) : (asr a n).toInt = a.toInt / 2 ^ n := by
  rw [asr_toInt_ediv]
  norm_num

/-- The floor quotient, as the spec writes it (R9, R114). -/
theorem asr_toInt_fdiv (a : Word) (n : Nat) : (asr a n).toInt = a.toInt.fdiv (2 ^ n) := by
  rw [asr_toInt, Int.fdiv_eq_ediv_of_nonneg _ (by positivity)]

/-- `asr` is the shift of bit patterns that fills with the sign (R9, "Equivalently"). -/
theorem asr_eq_sshiftRight (a : Word) (n : Nat) : asr a n = a.sshiftRight n := by
  apply BitVec.eq_of_toInt_eq
  rw [asr_toInt_ediv, BitVec.toInt_sshiftRight, Int.shiftRight_eq_div_pow]

/-- A shift by nothing keeps the word. -/
@[simp] theorem asr_zero (a : Word) : asr a 0 = a := by
  rw [asr_eq_sshiftRight, BitVec.sshiftRight_zero]

/-- A shift of a non-negative word stays between 0 and the word (R114). -/
theorem asr_toInt_of_nonneg {a : Word} (h : 0 ≤ a.toInt) (n : Nat) :
    0 ≤ (asr a n).toInt ∧ (asr a n).toInt ≤ a.toInt := by
  rw [asr_toInt]
  exact ⟨Int.ediv_nonneg h (by positivity), Int.ediv_le_self _ h⟩

/-- A shift of a negative word stays between the word and -1 (R114). -/
theorem asr_toInt_of_neg {a : Word} (h : a.toInt < 0) (n : Nat) :
    a.toInt ≤ (asr a n).toInt ∧ (asr a n).toInt ≤ -1 := by
  rw [asr_toInt]
  have hp : (1 : Int) ≤ 2 ^ n := one_le_pow₀ (by decide)
  constructor
  · rw [Int.le_ediv_iff_mul_le (by omega)]
    nlinarith
  · have hneg : a.toInt / 2 ^ n < 0 := Int.ediv_neg_of_neg_of_pos h (by omega)
    omega

/-- A shift by one or more makes a positive word smaller. -/
theorem asr_toInt_lt {a : Word} (h : 0 < a.toInt) {n : Nat} (hn : 1 ≤ n) : (asr a n).toInt < a.toInt := by
  rw [asr_toInt]
  exact Int.ediv_lt_self_of_pos_of_ne_one h (by
    have hp : (2 : Int) ^ 1 ≤ 2 ^ n := pow_le_pow_right₀ (by decide) hn
    omega)

/-- From 63 on the amount is at least the word's range (R114). -/
theorem toInt_lt_two_pow {n : Nat} (a : Word) (hn : 63 ≤ n) : -(2 ^ n : Int) ≤ a.toInt ∧ a.toInt < 2 ^ n := by
  have hp : (2 : Int) ^ 63 ≤ 2 ^ n := pow_le_pow_right₀ (by decide) hn
  have hlo := BitVec.le_toInt a
  have hhi := BitVec.toInt_lt (x := a)
  omega

/-- A non-negative word shifted by 63 or more is 0 (R114, D4). -/
theorem asr_of_nonneg_of_le {a : Word} (h : 0 ≤ a.toInt) {n : Nat} (hn : 63 ≤ n) : asr a n = 0 := by
  apply BitVec.eq_of_toInt_eq
  rw [asr_toInt]
  exact Int.ediv_eq_zero_of_lt h (toInt_lt_two_pow a hn).2

/-- A negative word shifted by 63 or more is -1 (R114, D4). -/
theorem asr_of_neg_of_le {a : Word} (h : a.toInt < 0) {n : Nat} (hn : 63 ≤ n) : asr a n = -1 := by
  apply BitVec.eq_of_toInt_eq
  have hrange := toInt_lt_two_pow a hn
  have hle := asr_toInt_of_neg h n
  have hge : -1 ≤ (asr a n).toInt := by
    rw [asr_toInt, Int.le_ediv_iff_mul_le (by positivity)]
    omega
  exact le_antisymm hle.2 hge

/-! ### `emod` -/

/-- `emod` by 8 and by 256 looks at the unsigned pattern only, since both divide 2^64 (R10). -/
theorem emod_eq_toNat_mod (a : Word) {m : Nat} (h : m ∈ [8, 256]) : emod a m = a.toNat % m := by
  unfold emod
  rw [BitVec.toInt_eq_toNat_cond]
  simp only [List.mem_cons, List.not_mem_nil, or_false] at h
  rcases h with rfl | rfl <;> split <;> omega

/-- `emod` is the one remainder in range (R10). -/
theorem emod_unique (a : Word) {m r : Nat} (hm : 0 < m) : (r < m ∧ (m : Int) ∣ a.toInt - r) ↔ r = emod a m := by
  have hcast := emod_cast a hm
  constructor
  · rintro ⟨hr, hdvd⟩
    have hmod : a.toInt % m = r := by
      rw [Int.emod_eq_emod_iff_emod_sub_eq_zero.2 (Int.emod_eq_zero_of_dvd hdvd)]
      exact Int.emod_eq_of_lt (by omega) (by omega)
    omega
  · rintro rfl
    refine ⟨emod_lt a hm, ?_⟩
    rw [hcast]
    exact Int.dvd_self_sub_emod

/-- Shift and remainder are the two halves of one floor division (R131). -/
theorem eq_mul_asr_add_emod (a : Word) (n : Nat) : a.toInt = 2 ^ n * (asr a n).toInt + emod a (2 ^ n) := by
  rw [asr_toInt, emod_cast a (by positivity)]
  push_cast
  exact (Int.mul_ediv_add_emod _ _).symm

/-! ### `xor64` -/

/-- The result is negative where exactly one of the inputs is (R122). -/
theorem xor64_neg_iff (a b : Word) : (xor64 a b).toInt < 0 ↔ ¬ (a.toInt < 0 ↔ b.toInt < 0) := by
  simp only [toInt_neg_iff_getLsbD, getLsbD_xor64]
  cases a.getLsbD 63 <;> cases b.getLsbD 63 <;> decide

/-- A non-negative word is its unsigned value (R8). -/
theorem toInt_eq_toNat_of_nonneg {a : Word} (h : 0 ≤ a.toInt) : a.toInt = a.toNat := by
  rw [BitVec.toInt_eq_toNat_cond] at h ⊢
  split at h <;> omega

/-- Exclusive or with all ones is the negative, less one (R122). -/
theorem xor64_neg_one_toInt (a : Word) : (xor64 a (-1)).toInt = -a.toInt - 1 := by
  have hnot : xor64 a (-1) = ~~~a := by
    rw [xor64, show (-1 : Word) = BitVec.allOnes 64 from BitVec.neg_one_eq_allOnes, BitVec.xor_allOnes]
  rw [hnot, BitVec.toInt_eq_toNat_cond, BitVec.toInt_eq_toNat_cond, BitVec.toNat_not]
  omega

/-- Two non-negative words below 2^k have an exclusive or that is (R122). -/
theorem xor64_lt_two_pow {a b : Word} {k : Nat} (ha : 0 ≤ a.toInt) (hak : a.toInt < 2 ^ k) (hb : 0 ≤ b.toInt)
    (hbk : b.toInt < 2 ^ k) : 0 ≤ (xor64 a b).toInt ∧ (xor64 a b).toInt < 2 ^ k := by
  have hnonneg : 0 ≤ (xor64 a b).toInt := by
    have hneg := xor64_neg_iff a b
    omega
  refine ⟨hnonneg, ?_⟩
  rw [toInt_eq_toNat_of_nonneg ha] at hak
  rw [toInt_eq_toNat_of_nonneg hb] at hbk
  rw [toInt_eq_toNat_of_nonneg hnonneg, xor64, BitVec.toNat_xor]
  exact_mod_cast Nat.xor_lt_two_pow (by exact_mod_cast hak) (by exact_mod_cast hbk)

end Sys2Proof.Machine

namespace Sys2Proof

open Machine

/-- Settles O1, by the bits of the arithmetic shift of patterns. -/
theorem asrMovesBitsAndCopiesTheSign : Obligations.AsrMovesBitsAndCopiesTheSign := by
  unfold Obligations.AsrMovesBitsAndCopiesTheSign
  intro a n i _ hi
  rw [asr_eq_sshiftRight, BitVec.getLsbD_sshiftRight, Nat.add_comm n i]
  simp [Nat.not_le.2 hi]

/-- Settles O2, row by row of R114's table. -/
theorem asrResultsBySignAndAmount : Obligations.AsrResultsBySignAndAmount := by
  unfold Obligations.AsrResultsBySignAndAmount
  refine ⟨fun a n _ => ⟨?zero, fun ha _ _ => ?nonneg, fun ha _ _ => ?neg, fun ha hn => asr_of_nonneg_of_le ha hn,
    fun ha hn => asr_of_neg_of_le ha hn⟩, by decide, fun a => ⟨fun ha => ?largest, fun ha => ?smallest⟩⟩
  case zero =>
    rintro rfl
    exact asr_zero a
  case nonneg =>
    refine ⟨asr_toInt_fdiv a n, ?_, asr_toInt_of_nonneg ha n⟩
    rw [asr_toInt, Int.tdiv_eq_ediv_of_nonneg ha]
  case neg => exact ⟨asr_toInt_fdiv a n, asr_toInt_of_neg ha n⟩
  case largest =>
    rw [asr_toInt, ha]
    norm_num
  case smallest =>
    rw [asr_toInt, asr_toInt, ha]
    norm_num

/-- Settles O3, by the composition of shifts of patterns. -/
theorem twoShiftsAreOneShift : Obligations.TwoShiftsAreOneShift := by
  unfold Obligations.TwoShiftsAreOneShift
  intro a m n _
  simp only [asr_eq_sshiftRight]
  exact BitVec.sshiftRight_add.symm

/-- Settles O4, by how truncation and floor differ. -/
theorem asrAgainstTheTruncatingQuotient : Obligations.AsrAgainstTheTruncatingQuotient := by
  unfold Obligations.AsrAgainstTheTruncatingQuotient
  intro a n _
  have hsign : (2 ^ n : Int).sign = 1 := Int.sign_eq_one_of_pos (by positivity)
  rw [asr_toInt, Int.tdiv_eq_ediv, hsign]
  split <;> omega

/-- Settles O5, by the unsigned reading of `emod` and its uniqueness. -/
theorem emodIsTheLowBitsAndUnique : Obligations.EmodIsTheLowBitsAndUnique := by
  unfold Obligations.EmodIsTheLowBitsAndUnique
  intro a
  refine ⟨?_, ?_, fun m hm r => emod_unique a ?_⟩
  · rw [emod_eq_toNat_mod a (by simp), BitVec.extractLsb'_toNat, Nat.shiftRight_zero]
  · rw [emod_eq_toNat_mod a (by simp), BitVec.extractLsb'_toNat, Nat.shiftRight_zero]
  · simp only [List.mem_cons, List.not_mem_nil, or_false] at hm
    omega

/-- Settles O6: 8 and 256 are the third and eighth powers of two. -/
theorem shiftAndRemainderRebuildTheValue : Obligations.ShiftAndRemainderRebuildTheValue := by
  unfold Obligations.ShiftAndRemainderRebuildTheValue
  intro a
  exact ⟨eq_mul_asr_add_emod a 3, eq_mul_asr_add_emod a 8⟩

/-- Settles O7, by the laws of bit patterns and the two laws about the sign. -/
theorem xorLawsOnSignedValues : Obligations.XorLawsOnSignedValues := by
  unfold Obligations.XorLawsOnSignedValues
  intro a b c
  exact ⟨BitVec.xor_comm a b, BitVec.xor_assoc a b c, xor64_zero a, BitVec.xor_self, xor64_neg_one_toInt a,
    xor64_neg_iff a b, fun k ha hak hb hbk => xor64_lt_two_pow ha hak hb hbk⟩

end Sys2Proof
end

section
/-! PROOF. The instructions with their results and frames: the three shifts, `mod-B`, `emit` and `xor-B-C` (R110 to
R113, R121, R130, R150). -/

namespace Sys2Proof.Machine

/-! ### What the operand values give -/

/-- The shift amount of a number selector is the number (R110). -/
theorem shiftAmount_of_le {s : State} {sel : Cell} {v : Word} (h : ComboDenotes s sel v) (h3 : sel.toNat ≤ 3) :
    shiftAmount v = sel.toNat := by
  rw [shiftAmount, emod_eq_toNat_mod v (by simp), h.toNat_eq h3]
  omega

/-- The shift result is the floor quotient by two to the low byte of the operand value (R110). -/
theorem shiftResult_toInt (a v : Word) : (shiftResult a v).toInt = a.toInt.fdiv (2 ^ (v.toInt % 256).toNat) :=
  asr_toInt_fdiv a (shiftAmount v)

/-- Selector 0 shifts by nothing (R111). -/
theorem shiftResult_of_selector_zero {s : State} {sel : Cell} {v : Word} (h : ComboDenotes s sel v)
    (h0 : sel.toNat = 0) (a : Word) : shiftResult a v = a := by
  rw [shiftResult, shiftAmount_of_le h (by omega), h0, asr_zero]

/-- Zero shifted is zero (R111). -/
theorem shiftResult_zero (v : Word) : shiftResult 0 v = 0 := by
  apply BitVec.eq_of_toInt_eq
  have hrange := asr_toInt_of_nonneg (a := 0) (by decide) (shiftAmount v)
  exact le_antisymm hrange.2 hrange.1

/-- -1 shifted is -1 (R111). -/
theorem shiftResult_neg_one (v : Word) : shiftResult (-1) v = -1 := by
  apply BitVec.eq_of_toInt_eq
  have hrange := asr_toInt_of_neg (a := -1) (by decide) (shiftAmount v)
  exact le_antisymm hrange.2 hrange.1

/-- A negative word shifted is negative (R111). -/
theorem shiftResult_neg {a : Word} (h : a.toInt < 0) (v : Word) : (shiftResult a v).toInt < 0 := by
  have hrange := asr_toInt_of_neg h (shiftAmount v)
  rw [shiftResult]
  omega

/-- The register value of a remainder by 8 is the remainder (R130). -/
theorem ofNat_emod_eight_toInt (v : Word) : (BitVec.ofNat 64 (emod v 8)).toInt = v.toInt % 8 := by
  have hlt := emod_lt v (show 0 < 8 by decide)
  have hcast := emod_cast v (show 0 < 8 by decide)
  rw [BitVec.toInt_eq_toNat_cond, BitVec.toNat_ofNat]
  split <;> omega

/-! ### The outcome for an operand that denotes a value, and for the reserved one -/

/-- A shift whose operand denotes `v` writes its register and advances (R110). -/
theorem shiftInto_of_denotes {s : State} {sel : Cell} {v : Word} (h : ComboDenotes s sel v) (r : Reg) :
    shiftInto r sel s = .next (s.setReg r (shiftResult s.a v)).advance := by
  unfold shiftInto
  rw [combo_eq_ok.2 h]
  rfl

/-- `mod-B` whose operand denotes `v` writes B and advances (R130). -/
theorem execModB_of_denotes {s : State} {sel : Cell} {v : Word} (h : ComboDenotes s sel v) :
    execModB sel s = .next (s.setReg .B (BitVec.ofNat 64 (emod v 8))).advance := by
  unfold execModB
  rw [combo_eq_ok.2 h]
  rfl

/-- `emit` whose operand denotes `v` appends a digit and advances, where there is room (R150). -/
theorem execEmit_of_denotes {s : State} {sel : Cell} {v : Word} (h : ComboDenotes s sel v) (hroom : ¬ s.outFull) :
    execEmit sel s = .next (State.advance { s with out := s.out ++ [digitOf v] }) := by
  unfold execEmit
  rw [combo_eq_ok.2 h, withOperand_ok, outAppend_room _ hroom]

/-- Every combo instruction with the reserved selector records that and nothing else (R77, R94). -/
theorem exec_of_reserved {i : Instr} (s : State) (hk : i.operandKind = .combo) (h7 : i.operand.toNat = 7) :
    exec i s = .next (s.enterFault .reservedCombo) :=
  exec_of_execFault (execFault_of_combo_error hk (combo_eq_error.2 (.inl ⟨rfl, h7⟩))) (by decide)

end Sys2Proof.Machine

namespace Sys2Proof

open Machine

/-- Settles O18, by the common rule of the shifts and the corner cases of the shift result. -/
theorem shiftAStoresTheFloorQuotient : Obligations.ShiftAStoresTheFloorQuotient := by
  unfold Obligations.ShiftAStoresTheFloorQuotient
  intro s sel
  refine ⟨fun v h => ?_, exec_of_reserved (i := .shiftA sel) s rfl⟩
  refine ⟨shiftResult s.a v, shiftInto_of_denotes h .A, shiftResult_toInt s.a v,
    fun h0 => shiftResult_of_selector_zero h h0 s.a, fun ha => ?zero, fun ha => ?negOne, fun ha => shiftResult_neg ha v⟩
  case zero => rw [ha, shiftResult_zero]
  case negOne => rw [ha, shiftResult_neg_one]

/-- Settles O19, by the common rule of the shifts. -/
theorem shiftBStoresTheFloorQuotient : Obligations.ShiftBStoresTheFloorQuotient := by
  unfold Obligations.ShiftBStoresTheFloorQuotient
  intro s sel
  exact ⟨fun v h => ⟨shiftResult s.a v, shiftInto_of_denotes h .B, shiftResult_toInt s.a v,
    fun h0 => shiftResult_of_selector_zero h h0 s.a⟩, exec_of_reserved (i := .shiftB sel) s rfl⟩

/-- Settles O20, by the common rule of the shifts. -/
theorem shiftCStoresTheFloorQuotient : Obligations.ShiftCStoresTheFloorQuotient := by
  unfold Obligations.ShiftCStoresTheFloorQuotient
  intro s sel
  exact ⟨fun v h => ⟨shiftResult s.a v, shiftInto_of_denotes h .C, shiftResult_toInt s.a v,
    fun h0 => shiftResult_of_selector_zero h h0 s.a⟩, exec_of_reserved (i := .shiftC sel) s rfl⟩

/-- Settles O23, by the value of a remainder by 8 and its range. -/
theorem modBStoresTheRemainderByEight : Obligations.ModBStoresTheRemainderByEight := by
  unfold Obligations.ModBStoresTheRemainderByEight
  intro s sel
  refine ⟨fun v h => ⟨BitVec.ofNat 64 (emod v 8), execModB_of_denotes h, ofNat_emod_eight_toInt v, ?_⟩,
    exec_of_reserved (i := .modB sel) s rfl⟩
  rw [ofNat_emod_eight_toInt]
  omega

/-- Settles O25: with room a digit is appended, and both faults are the instruction's. -/
theorem emitAppendsOneDigit : Obligations.EmitAppendsOneDigit := by
  unfold Obligations.EmitAppendsOneDigit
  intro s sel
  refine ⟨fun v h hroom => ⟨digitOf v, execEmit_of_denotes h hroom, emod_cast v (by decide)⟩, fun v h hfull => ?full,
    exec_of_reserved (i := .emit sel) s rfl⟩
  case full =>
    have hfault : execFault (.emit sel) s = .outputOverflow := by
      rw [execFault_of_combo_ok rfl (combo_eq_ok.2 h), if_pos ⟨rfl, hfull⟩]
    exact exec_of_execFault hfault (by decide)

/-- Settles O22, by the bits and the sign of an exclusive or. -/
theorem xorBCIgnoresItsOperand : Obligations.XorBCIgnoresItsOperand := by
  unfold Obligations.XorBCIgnoresItsOperand
  intro s sel
  refine ⟨xor64 s.b s.c, execXorBC_eq sel s, getLsbD_xor64 s.b s.c, xor64_neg_iff s.b s.c, fun h => ?same,
    fun h => ?zero⟩
  case same =>
    rw [h]
    exact BitVec.xor_self
  case zero => rw [h, xor64_zero]

end Sys2Proof
end

section
/-! PROOF. Which registers an instruction writes and which it reads (R25). -/

namespace Sys2Proof.Machine

/-- A resolved combo instruction that ends by writing `r`, or the fault of its operand. -/
theorem write_cases_of_combo_write {i : Instr} {s : State} {sel : Cell} {res : Result} {r : Reg} {F : Word → Word}
    (hw : WritesReg i r)
    (h : (∃ v, combo s sel = .ok v ∧ res = .next (s.setReg r (F v)).advance) ∨
      ∃ f, f ≠ .noFault ∧ combo s sel = .error f ∧ res = .next (s.enterFault f)) :
    (∃ f, f ≠ .noFault ∧ res = .next (s.enterFault f)) ∨
      ∃ r v, WritesReg i r ∧ res = .next (s.setReg r v).advance := by
  rcases h with ⟨v, -, e⟩ | ⟨f, hf, -, e⟩
  · exact .inr ⟨r, F v, hw, e⟩
  · exact .inl ⟨f, hf, e⟩

/-- What an instruction can do, with the register it writes and the opcode that appends (R25, column "writes"). -/
theorem exec_write_cases (i : Instr) (s : State) :
    (∃ f, f ≠ .noFault ∧ exec i s = .next (s.enterFault f)) ∨
      (∃ r v, WritesReg i r ∧ exec i s = .next (s.setReg r v).advance) ∨
      (∃ d, i.opcode = 5 ∧ exec i s = .next (State.advance { s with out := s.out ++ [d] })) ∨
      ∃ k, exec i s = .next (s.setIp k) := by
  cases i with
  | shiftA o => exact (write_cases_of_combo_write (i := .shiftA o) (r := .A) rfl (shiftInto_cases .A o s)).imp id .inl
  | shiftB o => exact (write_cases_of_combo_write (i := .shiftB o) (r := .B) rfl (shiftInto_cases .B o s)).imp id .inl
  | shiftC o => exact (write_cases_of_combo_write (i := .shiftC o) (r := .C) rfl (shiftInto_cases .C o s)).imp id .inl
  | modB o => exact (write_cases_of_combo_write (i := .modB o) (r := .B) rfl (execModB_cases o s)).imp id .inl
  | xorLiteralB o =>
    rcases execXorLiteralB_cases o s with ⟨-, e⟩ | ⟨-, e⟩
    · exact .inr (.inl ⟨.B, _, rfl, e⟩)
    · exact .inl ⟨_, by decide, e⟩
  | xorBC o => exact .inr (.inl ⟨.B, _, rfl, execXorBC_eq o s⟩)
  | jumpIfANonzero o =>
    rcases execJumpIfANonzero_cases o s with ⟨-, -, e⟩ | ⟨-, -, -, e⟩ | ⟨-, -, -, e⟩ | ⟨-, e⟩
    · exact .inr (.inr (.inr ⟨_, e⟩))
    · exact .inr (.inr (.inr ⟨_, e⟩))
    · exact .inl ⟨_, by decide, e⟩
    · exact .inl ⟨_, by decide, e⟩
  | emit o =>
    rcases execEmit_cases o s with ⟨v, -, -, e⟩ | ⟨v, -, -, e⟩ | ⟨f, hf, -, e⟩
    · exact .inr (.inr (.inl ⟨_, rfl, e⟩))
    · exact .inl ⟨_, by decide, e⟩
    · exact .inl ⟨f, hf, e⟩

/-- A register that an instruction changes is one it writes (R25). -/
theorem writesReg_of_changed {i : Instr} {s t : State} (h : exec i s = .next t) {r : Reg}
    (hr : t.getReg r ≠ s.getReg r) : WritesReg i r := by
  rcases exec_write_cases i s with ⟨f, -, e⟩ | ⟨q, v, hq, e⟩ | ⟨d, -, e⟩ | ⟨k, e⟩ <;> cases h.symm.trans e
  · exact absurd (by cases r <;> rfl) hr
  · by_cases hrq : r = q
    · exact hrq ▸ hq
    · refine absurd ?_ hr
      rw [← State.getReg_setReg_other s v hrq]
      cases r <;> rfl
  · exact absurd (by cases r <;> rfl) hr
  · exact absurd (by cases r <;> rfl) hr

/-- `out` changes by opcode 5 only (R25, R31). -/
theorem opcode_eq_five_of_out_changed {i : Instr} {s t : State} (h : exec i s = .next t) (hout : t.out ≠ s.out) :
    i.opcode = 5 := by
  rcases exec_write_cases i s with ⟨f, -, e⟩ | ⟨q, v, -, e⟩ | ⟨d, h5, -⟩ | ⟨k, e⟩
  · cases h.symm.trans e
    exact absurd rfl hout
  · cases h.symm.trans e
    exact absurd (by simp) hout
  · exact h5
  · cases h.symm.trans e
    exact absurd rfl hout

/-- No instruction touches the program or the parameters (R61). -/
theorem exec_keeps_program {i : Instr} {s t : State} (h : exec i s = .next t) :
    t.prog = s.prog ∧ t.len = s.len ∧ t.params = s.params := by
  rcases exec_write_cases i s with ⟨f, -, e⟩ | ⟨q, v, -, e⟩ | ⟨d, -, e⟩ | ⟨k, e⟩ <;> cases h.symm.trans e <;> simp

/-! ### Registers that are not read -/

/-- Writes to different registers commute. -/
theorem State.setReg_comm (s : State) {r q : Reg} (v w : Word) (h : r ≠ q) :
    (s.setReg r v).setReg q w = (s.setReg q w).setReg r v := by
  cases r <;> cases q <;> simp [State.setReg] at h ⊢

/-- The later of two writes to a register counts. -/
theorem State.setReg_setReg_same (s : State) (r : Reg) (v w : Word) : (s.setReg r v).setReg r w = s.setReg r w := by
  cases r <;> rfl

/-- Setting `ip` and writing a register commute. -/
theorem State.setIp_setReg (s : State) (r : Reg) (v : Word) (k : Nat) :
    (s.setReg r v).setIp k = (s.setIp k).setReg r v := by
  cases r <;> rfl

/-- Advancing and writing a register commute. -/
theorem State.advance_setReg (s : State) (r : Reg) (v : Word) : (s.setReg r v).advance = s.advance.setReg r v := by
  cases r <;> rfl

/-- Fault entry and writing a register commute: the record does not look at registers (R167). -/
theorem State.enterFault_setReg (s : State) (r : Reg) (v : Word) (f : Cause) :
    (s.setReg r v).enterFault f = (s.enterFault f).setReg r v := by
  cases r <;> rfl

/-- Appending to `out` and writing a register commute. -/
theorem outAppend_setReg (s : State) (r : Reg) (v : Word) (d : Digit) :
    outAppend (s.setReg r v) d = (outAppend s d).map (·.setReg r v) := by
  have hfull : (s.setReg r v).outFull = s.outFull :=
    outFull_congr (State.setReg_out s r v) (State.setReg_params s r v)
  unfold outAppend
  rw [hfull]
  split
  · rfl
  · cases r <;> rfl

/-- The instruction `i`, which answers `t` from some state, has the outcome `res` with `v` put in register `r` first:
the same but for `v` in `r`, or, where `i` writes `r` without a fault, the same. -/
def SameButReg (i : Instr) (r : Reg) (v : Word) (t : State) (res : Result) : Prop :=
  (res = .next (t.setReg r v) ∧ (WritesReg i r → t.cause ≠ .noFault)) ∨ (res = .next t ∧ WritesReg i r)

/-- A fault entry is the same but for the register, whatever the instruction writes. -/
theorem sameButReg_raise (i : Instr) (s : State) (r : Reg) (v : Word) {f : Cause} (hf : f ≠ .noFault) :
    SameButReg i r v (s.enterFault f) (raise (s.setReg r v) f) :=
  .inl ⟨congrArg _ (State.enterFault_setReg s r v f), fun _ => hf⟩

/-- The end of an arithmetic instruction that writes `q` alone. -/
theorem sameButReg_writeBack {i : Instr} {q : Reg} (hq : ∀ r, WritesReg i r ↔ r = q) (s : State) (r : Reg)
    (v x : Word) :
    SameButReg i r v (s.setReg q x).advance (writeBack (s.setReg r v) q x) := by
  by_cases hrq : r = q
  · subst hrq
    exact .inr ⟨by rw [writeBack, State.setReg_setReg_same], (hq r).2 rfl⟩
  · exact .inl ⟨by rw [writeBack, State.setReg_comm s v x hrq, State.advance_setReg],
      fun hw => absurd ((hq r).1 hw) hrq⟩

/-- An operand resolved alike leaves it to the effect. -/
theorem sameButReg_withOperand {i : Instr} {s t : State} {r : Reg} {v : Word} {resolved : Except Cause Word}
    {effect effect' : Word → Result} (hres : ∀ f, resolved = .error f → f ≠ .noFault)
    (h : withOperand s resolved effect = .next t)
    (heffect : ∀ x, effect x = .next t → SameButReg i r v t (effect' x)) :
    SameButReg i r v t (withOperand (s.setReg r v) resolved effect') := by
  cases resolved with
  | ok x => exact heffect x h
  | error f =>
    cases h
    exact sameButReg_raise i s r v (hres f rfl)

/-- The combo resolver records a fault when it fails. -/
theorem combo_error_ne {s : State} {sel : Cell} (f : Cause) (h : combo s sel = .error f) : f ≠ .noFault := by
  rcases combo_eq_error.1 h with ⟨rfl, -⟩ | ⟨rfl, -⟩ <;> decide

/-- The literal resolver records a fault when it fails. -/
theorem literal_error_ne {sel : Cell} (f : Cause) (h : literal sel = .error f) : f ≠ .noFault := by
  rcases literal_cases sel with ⟨-, e⟩ | ⟨-, e⟩ <;> cases e.symm.trans h
  decide

/-- A combo operand that does not name the register is resolved alike (R74). -/
theorem combo_setReg {i : Instr} {r : Reg} (hk : i.operandKind = .combo) (hr : ¬ ReadsReg i r) (s : State) (v : Word) :
    combo (s.setReg r v) i.operand = combo s i.operand := by
  have hnot : ¬ ((r = .A ∧ i.operand = 4) ∨ (r = .B ∧ i.operand = 5) ∨ (r = .C ∧ i.operand = 6)) :=
    fun h => hr (.inl ⟨hk, h⟩)
  have hcell (n : Cell) : i.operand = n ↔ i.operand.toNat = n.toNat := BitVec.toNat_inj.symm
  simp only [hcell] at hnot
  rcases combo_cases s i.operand with ⟨h, e⟩ | ⟨h, e⟩ | ⟨h, e⟩ | ⟨h, e⟩ | ⟨h, e⟩ | ⟨h, e⟩ <;> rw [e]
  · exact combo_eq_ok.2 (.inl ⟨h, zext64_toNat _⟩)
  · have hne : Reg.A ≠ r := fun hA => hnot (.inl ⟨hA.symm, h⟩)
    exact combo_eq_ok.2 (.inr (.inl ⟨h, (State.getReg_setReg_other s v hne).symm⟩))
  · have hne : Reg.B ≠ r := fun hB => hnot (.inr (.inl ⟨hB.symm, h⟩))
    exact combo_eq_ok.2 (.inr (.inr (.inl ⟨h, (State.getReg_setReg_other s v hne).symm⟩)))
  · have hne : Reg.C ≠ r := fun hC => hnot (.inr (.inr ⟨hC.symm, h⟩))
    exact combo_eq_ok.2 (.inr (.inr (.inr ⟨h, (State.getReg_setReg_other s v hne).symm⟩)))
  · exact combo_eq_error.2 (.inl ⟨rfl, h⟩)
  · exact combo_eq_error.2 (.inr ⟨rfl, h⟩)

/-- The three shifts: A is read always, the operand by its selector (R25, R110). -/
theorem sameButReg_shiftInto {i : Instr} {q : Reg} (hq : ∀ r, WritesReg i r ↔ r = q) (hk : i.operandKind = .combo)
    {s t : State} {r : Reg} (v : Word) (hr : ¬ ReadsReg i r) (hA : r ≠ .A) (h : shiftInto q i.operand s = .next t) :
    SameButReg i r v t (shiftInto q i.operand (s.setReg r v)) := by
  unfold shiftInto at h ⊢
  rw [combo_setReg hk hr, State.getReg_setReg_other s v hA.symm]
  refine sameButReg_withOperand combo_error_ne h fun x hx => ?_
  cases hx
  exact sameButReg_writeBack hq s r v _

/-- A register that an instruction does not read has no influence on it but for its own content (R25). -/
theorem exec_sameButReg {i : Instr} {s t : State} {r : Reg} (v : Word) (hr : ¬ ReadsReg i r) (h : exec i s = .next t) :
    SameButReg i r v t (exec i (s.setReg r v)) := by
  cases i with
  | shiftA o => exact sameButReg_shiftInto (fun _ => Iff.rfl) rfl v hr (fun hA => hr (.inr hA)) h
  | shiftB o => exact sameButReg_shiftInto (fun _ => Iff.rfl) rfl v hr (fun hA => hr (.inr hA)) h
  | shiftC o => exact sameButReg_shiftInto (fun _ => Iff.rfl) rfl v hr (fun hA => hr (.inr hA)) h
  | modB o =>
    show SameButReg _ r v t (execModB o (s.setReg r v))
    rw [execModB, show combo (s.setReg r v) o = combo s o from combo_setReg (i := .modB o) rfl hr s v]
    refine sameButReg_withOperand combo_error_ne h fun x hx => ?_
    cases hx
    exact sameButReg_writeBack (fun _ => Iff.rfl) s r v _
  | xorLiteralB o =>
    have hB : Reg.B ≠ r := fun hB => hr (.inr hB.symm)
    show SameButReg _ r v t (execXorLiteralB o (s.setReg r v))
    rw [execXorLiteralB, State.getReg_setReg_other s v hB]
    refine sameButReg_withOperand literal_error_ne h fun x hx => ?_
    cases hx
    exact sameButReg_writeBack (fun _ => Iff.rfl) s r v _
  | xorBC o =>
    have hB : Reg.B ≠ r := fun hB => hr (.inr (.inl hB.symm))
    have hC : Reg.C ≠ r := fun hC => hr (.inr (.inr hC.symm))
    show SameButReg _ r v t (execXorBC o (s.setReg r v))
    rw [execXorBC, State.getReg_setReg_other s v hB, State.getReg_setReg_other s v hC]
    cases h
    exact sameButReg_writeBack (fun _ => Iff.rfl) s r v _
  | jumpIfANonzero o =>
    have hA : Reg.A ≠ r := fun hA => hr (.inr hA.symm)
    show SameButReg _ r v t (execJumpIfANonzero o (s.setReg r v))
    rw [execJumpIfANonzero, State.getReg_setReg_other s v hA]
    refine sameButReg_withOperand literal_error_ne h fun x hx => ?_
    by_cases ha : s.getReg .A ≠ 0
    · rw [if_pos ha] at hx ⊢
      by_cases hodd : x.toNat % 2 = 1
      · rw [if_pos hodd] at hx ⊢
        cases hx
        exact sameButReg_raise _ s r v (by decide)
      · rw [if_neg hodd] at hx ⊢
        cases hx
        exact .inl ⟨congrArg _ (State.setIp_setReg s r v _), False.elim⟩
    · rw [if_neg ha] at hx ⊢
      cases hx
      exact .inl ⟨congrArg _ (State.advance_setReg s r v), False.elim⟩
  | emit o =>
    show SameButReg _ r v t (execEmit o (s.setReg r v))
    rw [execEmit, show combo (s.setReg r v) o = combo s o from combo_setReg (i := .emit o) rfl hr s v]
    refine sameButReg_withOperand combo_error_ne h fun x hx => ?_
    rw [outAppend_setReg]
    cases happend : outAppend s (digitOf x) with
    | none =>
      rw [happend] at hx
      cases hx
      exact sameButReg_raise _ s r v (by decide)
    | some u =>
      rw [happend] at hx
      cases hx
      exact .inl ⟨congrArg _ (State.advance_setReg u r v), False.elim⟩

end Sys2Proof.Machine

namespace Sys2Proof

open Machine

/-- Settles O27, by what each instruction can do. -/
theorem onlyTheListedOpcodesWrite : Obligations.OnlyTheListedOpcodesWrite := by
  unfold Obligations.OnlyTheListedOpcodesWrite
  intro i s t h
  exact ⟨fun _ => writesReg_of_changed h, opcode_eq_five_of_out_changed h, exec_keeps_program h⟩

/-- Settles O28, by the outcome with the register changed first. -/
theorem unreadRegistersHaveNoInfluence : Obligations.UnreadRegistersHaveNoInfluence := by
  unfold Obligations.UnreadRegistersHaveNoInfluence
  intro i s t r v hr _ h
  rcases exec_sameButReg v hr h with ⟨e, hfault⟩ | ⟨e, hw⟩
  · exact ⟨t.setReg r v, e, State.setReg_setReg_same t r v 0, fun hw hc => absurd hc (hfault hw),
      fun _ => State.getReg_setReg_same t r v⟩
  · exact ⟨t, e, rfl, fun _ _ => rfl, fun hn => absurd hw hn⟩

end Sys2Proof
end

section
/-! PROOF. Register A along a run (R111, R193): only `shift-A` writes it, and no shift changes its sign. -/

namespace Sys2Proof.Machine

/-- A keeps its value, but in a `shift-A` that resolves its operand (R25, R111). -/
theorem a_of_exec {i : Instr} {s t : State} (h : exec i s = .next t) :
    t.a = s.a ∨ ∃ o v, i = .shiftA o ∧ ComboDenotes s o v ∧ t.a = shiftResult s.a v := by
  by_cases ha : t.a = s.a
  · exact .inl ha
  · have hw : WritesReg i .A := writesReg_of_changed h ha
    cases i with
    | shiftA o =>
      rcases shiftInto_cases .A o s with ⟨v, hv, e⟩ | ⟨f, -, -, e⟩ <;> cases h.symm.trans e
      · exact .inr ⟨o, v, rfl, combo_eq_ok.1 hv, rfl⟩
      · exact .inl rfl
    | jumpIfANonzero o => exact hw.elim
    | emit o => exact hw.elim
    | _ => cases hw

/-- A step keeps A or shifts it. -/
theorem a_of_step {s t : State} (h : step s = .next t) : t.a = s.a ∨ ∃ n, t.a = asr s.a n := by
  rcases step_cases s with ⟨-, e⟩ | ⟨-, -, e⟩ | ⟨-, -, i, -, e⟩ | ⟨-, -, f, -, e⟩ <;> rw [e] at h
  · cases h
  · cases h
  · exact (a_of_exec h).imp id fun ⟨_, v, _, _, ha⟩ => ⟨shiftAmount v, ha⟩
  · cases h
    exact .inl rfl

/-- A negative A stays negative and does not fall (R111). -/
theorem Reaches.a_of_neg {s t : State} (h : Reaches s t) (ha : s.a.toInt < 0) :
    t.a.toInt < 0 ∧ s.a.toInt ≤ t.a.toInt := by
  refine h.invariant (P := fun x => x.a.toInt < 0 ∧ s.a.toInt ≤ x.a.toInt) ⟨ha, le_refl _⟩
    fun x y ⟨hneg, hle⟩ hstep => ?_
  rcases a_of_step hstep with e | ⟨n, e⟩ <;> rw [e]
  · exact ⟨hneg, hle⟩
  · have hrange := asr_toInt_of_neg hneg n
    omega

/-- A non-negative A stays non-negative and does not grow (R193). -/
theorem Reaches.a_of_nonneg {s t : State} (h : Reaches s t) (ha : 0 ≤ s.a.toInt) :
    0 ≤ t.a.toInt ∧ t.a.toInt ≤ s.a.toInt := by
  refine h.invariant (P := fun x => 0 ≤ x.a.toInt ∧ x.a.toInt ≤ s.a.toInt) ⟨ha, le_refl _⟩
    fun x y ⟨hnonneg, hle⟩ hstep => ?_
  rcases a_of_step hstep with e | ⟨n, e⟩ <;> rw [e]
  · exact ⟨hnonneg, hle⟩
  · have hrange := asr_toInt_of_nonneg hnonneg n
    omega

end Sys2Proof.Machine

namespace Sys2Proof

open Machine

/-- Settles O39, by the two invariants of the run, one per sign. -/
theorem signOfANeverChanges : Obligations.SignOfANeverChanges := by
  unfold Obligations.SignOfANeverChanges
  exact fun s t h => ⟨h.a_of_neg, h.a_of_nonneg⟩

end Sys2Proof
end

section
/-! PROOF. Runs under fuel (R99 to R102, R173): a run ends as the state does that it comes to, so more fuel changes no
answer, and the trace and `execute` follow the steps. -/

namespace Sys2Proof.Machine

/-- A running state has a next state (R90). -/
theorem exists_step_of_run {s : State} (h : s.status = .run) : ∃ t, step s = .next t := by
  obtain ⟨hc, hl⟩ := State.status_eq_run.1 h
  obtain ⟨t, ht, -⟩ := exists_step_cause_eq hc hl
  exact ⟨t, ht⟩

/-- Fuel spent on the way to a state leaves the rest of it for the run from there. -/
theorem runUpTo_of_reachesIn {k : Nat} {s u : State} (h : ReachesIn k s u) (m : Nat) :
    runUpTo (k + m) s = runUpTo m u := by
  induction k generalizing s with
  | zero =>
    cases h
    rw [Nat.zero_add]
  | succ k ih =>
    obtain ⟨t, ht, hr⟩ := h
    rw [Nat.add_right_comm, runUpTo_next ht, ih hr]

/-- With `n` steps allowed a run comes to a state that has none, or takes all of them. -/
theorem exists_reachesIn_stopped (n : Nat) (s : State) :
    ∃ k ≤ n, ∃ u, ReachesIn k s u ∧ (u.status = .run → k = n) := by
  induction n generalizing s with
  | zero => exact ⟨0, le_refl 0, s, rfl, fun _ => rfl⟩
  | succ n ih =>
    by_cases hs : s.status = .run
    · obtain ⟨t, ht⟩ := exists_step_of_run hs
      obtain ⟨k, hk, u, hr, hend⟩ := ih t
      exact ⟨k + 1, Nat.succ_le_succ hk, u, ⟨t, ht, hr⟩, fun h => congrArg (· + 1) (hend h)⟩
    · exact ⟨0, Nat.zero_le _, s, rfl, fun h => absurd h hs⟩

/-- The end of a run, by the state that it comes to: halted, faulted, or running with the fuel used up. -/
theorem runUpTo_cases (n : Nat) (s : State) :
    (∃ k ≤ n, ∃ u, ReachesIn k s u ∧ u.status = .halt ∧ ∀ m, runUpTo (n + m) s = .halted u.out) ∨
      (∃ k ≤ n, ∃ u, ReachesIn k s u ∧ u.status = .fault ∧ ∀ m, runUpTo (n + m) s = .faulted u.cause u.faultIp) ∨
      ∃ u, ReachesIn n s u ∧ u.status = .run ∧ runUpTo n s = .noAnswer := by
  obtain ⟨k, hk, u, hr, hend⟩ := exists_reachesIn_stopped n s
  have hrun (m : Nat) : runUpTo (n + m) s = runUpTo (n - k + m) u := by
    rw [← runUpTo_of_reachesIn hr, ← Nat.add_assoc, Nat.add_sub_cancel' hk]
  cases hs : u.status with
  | halt => exact .inl ⟨k, hk, u, hr, hs, fun m => (hrun m).trans (runUpTo_halt hs)⟩
  | fault => exact .inr (.inl ⟨k, hk, u, hr, hs, fun m => (hrun m).trans (runUpTo_fault hs)⟩)
  | run =>
    obtain rfl := hend hs
    exact .inr (.inr ⟨u, hr, hs, (runUpTo_of_reachesIn hr 0).trans (runUpTo_zero hs)⟩)

/-- A run that comes to a halted state within the fuel ends with its `out` (R102). -/
theorem runUpTo_of_reachesIn_halt {k n : Nat} {s u : State} (hk : k ≤ n) (h : ReachesIn k s u) (hu : u.status = .halt) :
    runUpTo n s = .halted u.out := by
  obtain ⟨m, rfl⟩ := Nat.exists_eq_add_of_le hk
  rw [runUpTo_of_reachesIn h, runUpTo_halt hu]

/-- A run that comes to a faulted state within the fuel ends with its fault (R102, R200). -/
theorem runUpTo_of_reachesIn_fault {k n : Nat} {s u : State} (hk : k ≤ n) (h : ReachesIn k s u)
    (hu : u.status = .fault) : runUpTo n s = .faulted u.cause u.faultIp := by
  obtain ⟨m, rfl⟩ := Nat.exists_eq_add_of_le hk
  rw [runUpTo_of_reachesIn h, runUpTo_fault hu]

/-- A run that is still running when the fuel is used up has no answer (R173). -/
theorem runUpTo_of_reachesIn_run {n : Nat} {s u : State} (h : ReachesIn n s u) (hu : u.status = .run) :
    runUpTo n s = .noAnswer :=
  (runUpTo_of_reachesIn h 0).trans (runUpTo_zero hu)

/-- A run halts with `o` exactly if it comes to a halted state with that `out`. -/
theorem runUpTo_eq_halted {n : Nat} {s : State} {o : List Digit} :
    runUpTo n s = .halted o ↔ ∃ k ≤ n, ∃ u, ReachesIn k s u ∧ u.status = .halt ∧ u.out = o := by
  constructor
  · intro h
    rcases runUpTo_cases n s with ⟨k, hk, u, hr, hu, e⟩ | ⟨k, hk, u, hr, hu, e⟩ | ⟨u, hr, hu, e⟩
    · cases h.symm.trans (e 0)
      exact ⟨k, hk, u, hr, hu, rfl⟩
    · cases h.symm.trans (e 0)
    · cases h.symm.trans e
  · rintro ⟨k, hk, u, hr, hu, rfl⟩
    exact runUpTo_of_reachesIn_halt hk hr hu

/-- A run faults with a record exactly if it comes to a faulted state with that record. -/
theorem runUpTo_eq_faulted {n : Nat} {s : State} {c : Cause} {f : Nat} :
    runUpTo n s = .faulted c f ↔ ∃ k ≤ n, ∃ u, ReachesIn k s u ∧ u.status = .fault ∧ u.cause = c ∧ u.faultIp = f := by
  constructor
  · intro h
    rcases runUpTo_cases n s with ⟨k, hk, u, hr, hu, e⟩ | ⟨k, hk, u, hr, hu, e⟩ | ⟨u, hr, hu, e⟩
    · cases h.symm.trans (e 0)
    · cases h.symm.trans (e 0)
      exact ⟨k, hk, u, hr, hu, rfl, rfl⟩
    · cases h.symm.trans e
  · rintro ⟨k, hk, u, hr, hu, rfl, rfl⟩
    exact runUpTo_of_reachesIn_fault hk hr hu

/-- A run has no answer exactly if it is running after all the steps it may take. -/
theorem runUpTo_eq_noAnswer {n : Nat} {s : State} :
    runUpTo n s = .noAnswer ↔ ∃ u, ReachesIn n s u ∧ u.status = .run := by
  constructor
  · intro h
    rcases runUpTo_cases n s with ⟨k, hk, u, hr, hu, e⟩ | ⟨k, hk, u, hr, hu, e⟩ | ⟨u, hr, hu, e⟩
    · cases h.symm.trans (e 0)
    · cases h.symm.trans (e 0)
    · exact ⟨u, hr, hu⟩
  · rintro ⟨u, hr, hu⟩
    exact runUpTo_of_reachesIn_run hr hu

/-- `execute` of a launched machine is its run (R102). -/
theorem execute_of_launch {n : Nat} {p : Params} {i : LaunchInput} {s : State} (h : launch p i = .ok s) :
    execute n p i = .ok (runUpTo n s) := by
  unfold execute
  rw [h]

/-- `execute` is refused as the launch is. -/
theorem execute_eq_error {n : Nat} {p : Params} {i : LaunchInput} {r : LaunchRefusal} :
    execute n p i = .error r ↔ launch p i = .error r := by
  unfold execute
  cases launch p i <;> simp

/-! ### The jump at `ip` -/

/-- Where the cells at `ip` are those of a jump, the step is the jump (R75, R90). -/
theorem step_of_jump {s : State} (hc : s.cause = .noFault) (hl : s.ip + 2 ≤ s.len) (h3 : s.prog.read s.ip = 3)
    (h7 : (s.prog.read (s.ip + 1)).toNat ≤ 7) : step s = exec (.jumpIfANonzero (s.prog.read (s.ip + 1))) s :=
  step_of_decodePair hc hl (decodePair_eq_ok.2 ⟨⟨h3.symm, rfl⟩, .inr h7⟩)

/-- A taken jump to an even literal sets `ip` and nothing else (R140). -/
theorem step_of_taken_jump {s : State} (hc : s.cause = .noFault) (hl : s.ip + 2 ≤ s.len) (h3 : s.prog.read s.ip = 3)
    (h7 : (s.prog.read (s.ip + 1)).toNat ≤ 7) (ha : s.a ≠ 0) (heven : (s.prog.read (s.ip + 1)).toNat % 2 = 0) :
    step s = .next { s with ip := (s.prog.read (s.ip + 1)).toNat } := by
  rw [step_of_jump hc hl h3 h7]
  obtain ⟨-, htaken, -⟩ := jumpGoesToItsLiteralWhenANonzero s _ h7
  exact htaken ha heven

/-- A state whose step is itself is reached in any number of steps. -/
theorem reachesIn_self {s : State} (h : step s = .next s) (n : Nat) : ReachesIn n s s := by
  induction n with
  | zero => rfl
  | succ n ih => exact ⟨s, h, ih⟩

/-! ### The trace -/

/-- The last state `u` of a trace of `len` states, under fuel `n`, is the state that the end of the run names. -/
def EndsAs (len n : Nat) (u : State) : RunEnd → Prop
  | .halted o => u.status = .halt ∧ u.out = o
  | .faulted c k => u.status = .fault ∧ u.cause = c ∧ u.faultIp = k
  | .noAnswer => u.status = .run ∧ len = n + 1

/-- One unit of fuel and one state more in front. -/
theorem EndsAs.succ {len n : Nat} {u : State} {r : RunEnd} (h : EndsAs len n u r) : EndsAs (len + 1) (n + 1) u r := by
  cases r with
  | halted o => exact h
  | faulted c k => exact h
  | noAnswer => exact ⟨h.1, congrArg (· + 1) h.2⟩

/-- Two consecutive elements of a trace follow the step: the second is the next state of the first, or it is the last
one, faulted, in the place of the state whose step faulted (R99). -/
def FollowsStep (states : List State) : Prop :=
  ∀ (k : Nat) (x y : State), states[k]? = some x → states[k + 1]? = some y →
    (y.status ≠ .fault ∧ step x = .next y) ∨
    (k + 2 = states.length ∧ y.status = .fault ∧ ∃ z, z.status = .run ∧ step x = .next z ∧ step z = .next y)

/-- One state has no consecutive elements. -/
theorem followsStep_singleton (s : State) : FollowsStep [s] := by
  intro k x y _ hy
  simp at hy

/-- What a trace from `s` under fuel `n` is, with `u` its last state. -/
structure TraceOf (n : Nat) (s u : State) : Prop where
  last : (traceUpTo n s).getLast? = some u
  reached : Reaches s u
  ends : EndsAs (traceUpTo n s).length n u (runUpTo n s)
  first : (traceUpTo n s).head? = some s ∨ traceUpTo n s = [u] ∧ u.status = .fault ∧ step s = .next u
  follows : FollowsStep (traceUpTo n s)

/-- The trace from a state that has no next state is that state. -/
theorem traceOf_of_stopped (n : Nat) {s : State} (h : s.status ≠ .run) : TraceOf n s s := by
  have htrace := traceUpTo_stop (n := n) h
  refine ⟨by rw [htrace]; rfl, .here, ?_, .inl (by rw [htrace]; rfl), htrace ▸ followsStep_singleton s⟩
  cases hs : s.status with
  | run => exact absurd hs h
  | halt =>
    rw [runUpTo_halt hs]
    exact ⟨hs, rfl⟩
  | fault =>
    rw [runUpTo_fault hs]
    exact ⟨hs, rfl, rfl⟩

/-- Without fuel the trace from a running state is that state. -/
theorem traceOf_zero {s : State} (h : s.status = .run) : TraceOf 0 s s where
  last := rfl
  reached := .here
  ends := by
    rw [runUpTo_zero h]
    exact ⟨h, rfl⟩
  first := .inl rfl
  follows := followsStep_singleton s

/-- A step that faults puts the faulted state in the place of the one it started from (R99). -/
theorem traceOf_of_fault (n : Nat) {s t : State} (h : step s = .next t) (ht : t.status = .fault) :
    TraceOf (n + 1) s t := by
  have htrace : traceUpTo (n + 1) s = [t] := by rw [traceUpTo_next h, if_pos ht]
  refine ⟨by rw [htrace]; rfl, .step .here h, ?_, .inr ⟨htrace, ht, h⟩, htrace ▸ followsStep_singleton t⟩
  rw [runUpTo_next h, runUpTo_fault ht]
  exact ⟨ht, rfl, rfl⟩

/-- A state put in front of the trace from its next state follows the step. -/
theorem TraceOf.followsStep_cons {n : Nat} {s t u : State} (hu : TraceOf n t u) (h : step s = .next t)
    (ht : t.status ≠ .fault) : FollowsStep (s :: traceUpTo n t) := by
  intro k x y hx hy
  cases k with
  | succ k =>
    refine (hu.follows k x y hx hy).imp id fun ⟨hlen, hrest⟩ => ⟨?_, hrest⟩
    rw [List.length_cons, ← hlen]
  | zero =>
    cases hx
    rw [List.getElem?_cons_succ, ← List.head?_eq_getElem?] at hy
    rcases hu.first with hhead | ⟨hsingle, hfault, hstep⟩
    · cases hhead.symm.trans hy
      exact .inl ⟨ht, h⟩
    · rw [hsingle] at hy ⊢
      cases hy
      exact .inr ⟨rfl, hfault, t, status_eq_run_of_step hstep, h, hstep⟩

/-- A step that does not fault puts the state it starts from in front of the trace from the next one (R99). -/
theorem TraceOf.cons {n : Nat} {s t u : State} (hu : TraceOf n t u) (h : step s = .next t) (ht : t.status ≠ .fault) :
    TraceOf (n + 1) s u := by
  have htrace : traceUpTo (n + 1) s = s :: traceUpTo n t := by rw [traceUpTo_next h, if_neg ht]
  refine ⟨?_, .head h hu.reached, ?_, .inl (by rw [htrace]; rfl), htrace ▸ hu.followsStep_cons h ht⟩
  · rw [htrace, List.getLast?_cons, hu.last]
    rfl
  · rw [htrace, runUpTo_next h]
    exact hu.ends.succ

/-- Every trace has a last state and is what `TraceOf` says of it. -/
theorem exists_traceOf (n : Nat) (s : State) : ∃ u, TraceOf n s u := by
  induction n generalizing s with
  | zero =>
    by_cases hs : s.status = .run
    · exact ⟨s, traceOf_zero hs⟩
    · exact ⟨s, traceOf_of_stopped 0 hs⟩
  | succ n ih =>
    by_cases hs : s.status = .run
    · obtain ⟨t, h⟩ := exists_step_of_run hs
      by_cases ht : t.status = .fault
      · exact ⟨t, traceOf_of_fault n h ht⟩
      · obtain ⟨u, hu⟩ := ih t
        exact ⟨u, hu.cons h ht⟩
    · exact ⟨s, traceOf_of_stopped (n + 1) hs⟩

end Sys2Proof.Machine

namespace Sys2Proof

open Machine

/-- Settles O42: a run that has come to a halted or faulted state stays with it. -/
theorem moreFuelGivesTheSameAnswer : Obligations.MoreFuelGivesTheSameAnswer := by
  unfold Obligations.MoreFuelGivesTheSameAnswer
  intro n m s hanswer
  rcases runUpTo_cases n s with ⟨k, -, u, -, -, e⟩ | ⟨k, -, u, -, -, e⟩ | ⟨u, -, -, e⟩
  · exact (e m).trans (e 0).symm
  · exact (e m).trans (e 0).symm
  · exact absurd e hanswer

/-- Settles O40: the jump's next state is the state itself, so every number of steps comes to it. -/
theorem selfJumpRunsForever : Obligations.SelfJumpRunsForever := by
  unfold Obligations.SelfJumpRunsForever
  intro s hc hl heven h7 ha hop hself
  have hstep : step s = .next s := by
    rw [step_of_taken_jump hc hl hop (by omega) ha (by omega), hself]
  exact ⟨hstep, fun n => runUpTo_of_reachesIn_run (reachesIn_self hstep n) (status_eq_run_of_step hstep)⟩

/-- Settles O41: the jump's next state is halted. -/
theorem jumpOutOfTheProgramHalts : Obligations.JumpOutOfTheProgramHalts := by
  unfold Obligations.JumpOutOfTheProgramHalts
  intro s hc hl ha hop h7 heven htarget
  have hstep := step_of_taken_jump hc hl hop h7 ha heven
  refine ⟨hstep, fun n => ?_⟩
  rw [runUpTo_next hstep]
  exact runUpTo_halt (State.status_eq_halt.2 ⟨hc, htarget⟩)

/-- Settles O43, by the description of a trace. -/
theorem traceEndsAsTheRunEnds : Obligations.TraceEndsAsTheRunEnds := by
  unfold Obligations.TraceEndsAsTheRunEnds
  intro n s
  obtain ⟨u, hlast, hreached, hends, hfirst, hfollows⟩ := exists_traceOf n s
  refine ⟨u, hlast, hreached, ?_, hfirst, hfollows⟩
  unfold EndsAs at hends
  cases hrun : runUpTo n s <;> rw [hrun] at hends <;> exact hends

/-- Settles O50, by the three ways in which a run can stand. -/
theorem executeGivesTheEndOfTheLaunchedRun : Obligations.ExecuteGivesTheEndOfTheLaunchedRun := by
  unfold Obligations.ExecuteGivesTheEndOfTheLaunchedRun
  intro n p i
  refine ⟨fun r => execute_eq_error, fun s h => ?_⟩
  simp only [execute_of_launch h, Except.ok.injEq]
  exact ⟨fun o => runUpTo_eq_halted, fun c f => runUpTo_eq_faulted, runUpTo_eq_noAnswer⟩

end Sys2Proof
end

section
/-! PROOF. Programs of R195's shape halt. Every pass through the program makes a positive A smaller, so the passes left
are bounded by A, and the steps left by the passes times the instructions; each step makes that bound smaller. -/

namespace Sys2Proof.Machine

/-- A run of the program `prog` that has not faulted: what a step of a program of R195's shape needs and keeps. -/
structure OnCourse (prog : List Int) (s : State) : Prop where
  cells : ∀ k v, prog[k]? = some v → ((s.prog.read k).toNat : Int) = v
  small : ∀ v ∈ prog, isCell v
  len : s.len = prog.length
  noFault : s.cause = .noFault
  ipEven : s.ip % 2 = 0
  ipLe : s.ip ≤ s.len
  lenEven : s.len % 2 = 0
  nonneg : 0 ≤ s.a.toInt
  room : s.params.outCap = none

/-- The passes through the program that may still follow the present one, the `shift-A` standing at `2 * q`: until it is
executed A bounds them, after it the pass may end in one for each value down from A, if A is not zero. -/
def passesLeft (q ip A : Nat) : Nat := if ip ≤ 2 * q then A else if A = 0 then 0 else A + 1

/-- A bound on the steps left: the instructions left in this pass, and those of the passes after it. -/
def stepsLeft (q : Nat) (s : State) : Nat :=
  (s.len / 2 - s.ip / 2) + s.len / 2 * passesLeft q s.ip s.a.toInt.toNat

/-- Passing an instruction other than the `shift-A` at `2 * q` leaves no more passes. -/
theorem passesLeft_advance {q ip A B : Nat} (hB : B ≤ A) (heven : ip % 2 = 0) (hshift : ip = 2 * q → A = 0 ∨ B < A) :
    passesLeft q (ip + 2) B ≤ passesLeft q ip A := by
  unfold passesLeft
  split_ifs <;> omega

/-- From a state with fewer instructions left in the pass and no more passes after it fewer steps are left. -/
theorem stepsLeft_lt {q : Nat} {s t : State} (hlen : t.len = s.len) (hip : s.ip / 2 < t.ip / 2)
    (hl : s.ip / 2 < s.len / 2)
    (hpasses : passesLeft q t.ip t.a.toInt.toNat ≤ passesLeft q s.ip s.a.toInt.toNat) :
    stepsLeft q t < stepsLeft q s := by
  unfold stepsLeft
  rw [hlen]
  have hmul := Nat.mul_le_mul_left (s.len / 2) hpasses
  omega

/-- `shift-A` by the number 1, 2 or 3 makes a positive A smaller (R111). -/
theorem a_lt_of_shiftA {o : Cell} {s t : State} (h : exec (.shiftA o) s = .next t) (h1 : 1 ≤ o.toNat) (h3 : o.toNat ≤ 3)
    (ha : 0 < s.a.toInt) : t.a.toInt < s.a.toInt := by
  have hv : ComboDenotes s o (zext64 o) := .inl ⟨h3, zext64_toNat o⟩
  cases h.symm.trans (shiftInto_of_denotes hv .A)
  rw [State.advance_a, State.setReg_A_a, shiftResult, shiftAmount_of_le hv h3]
  exact asr_toInt_lt ha h1

/-- The `shift-A` of R195's shape, at the even index `2 * q` (the clause of `HaltingShape`). -/
def ShiftsAt (prog : List Int) (q : Nat) : Prop :=
  2 * q + 1 < prog.length ∧ prog[2 * q]? = some 0 ∧
    (prog[2 * q + 1]? = some 1 ∨ prog[2 * q + 1]? = some 2 ∨ prog[2 * q + 1]? = some 3)

section shape

variable {prog : List Int} {s t : State}

/-- A cell of the program that fetch reads is as the host gave it. -/
theorem OnCourse.getElem?_eq (h : OnCourse prog s) {k : Nat} (hk : k < s.len) :
    prog[k]? = some ((s.prog.read k).toNat : Int) := by
  have hv := List.getElem?_eq_getElem (l := prog) (h.len ▸ hk)
  rw [hv, h.cells k _ hv]

/-- What fetch reads is in 0..7. -/
theorem OnCourse.read_le (h : OnCourse prog s) {k : Nat} (hk : k < s.len) : (s.prog.read k).toNat ≤ 7 := by
  have hcell := h.small _ (List.mem_of_getElem? (h.getElem?_eq hk))
  simp only [isCell, decide_eq_true_eq] at hcell
  omega

/-- Both cells of the instruction at `ip` lie in the program. -/
theorem OnCourse.ip_add_two_le (h : OnCourse prog s) (hl : s.ip < s.len) : s.ip + 2 ≤ s.len := by
  have hip := h.ipEven
  have hlen := h.lenEven
  omega

/-- The jump is the last instruction, and no other one is (R195). -/
theorem OnCourse.opcode_eq_three_iff (h : OnCourse prog s) (hshape : HaltingShape prog) (hl : s.ip < s.len) :
    (s.prog.read s.ip).toNat = 3 ↔ s.ip + 2 = s.len := by
  have h2 := h.ip_add_two_le hl
  have hlen := h.len
  have hk : 2 * (s.ip / 2) = s.ip := Nat.two_mul_div_two_of_even (Nat.even_iff.2 h.ipEven)
  have hjump := hshape.oneJump (s.ip / 2) (by omega)
  rw [hk, h.getElem?_eq hl, Option.some.injEq] at hjump
  omega

/-- The jump's literal is 0 (R195). -/
theorem OnCourse.operand_of_last (h : OnCourse prog s) (hshape : HaltingShape prog) (hlast : s.ip + 2 = s.len) :
    (s.prog.read (s.ip + 1)).toNat = 0 := by
  have hhome := hshape.jumpsHome
  rw [← h.len, show s.len - 1 = s.ip + 1 by omega, h.getElem?_eq (by omega), Option.some.injEq] at hhome
  omega

/-- No combo instruction has the reserved selector (R195). -/
theorem OnCourse.operand_ne_seven (h : OnCourse prog s) (hshape : HaltingShape prog) (hl : s.ip < s.len)
    (hop : (s.prog.read s.ip).toNat ∈ [0, 2, 5, 6, 7]) : (s.prog.read (s.ip + 1)).toNat ≠ 7 := by
  have h2 := h.ip_add_two_le hl
  have hlen := h.len
  have hk : 2 * (s.ip / 2) = s.ip := Nat.two_mul_div_two_of_even (Nat.even_iff.2 h.ipEven)
  have hnot := hshape.noReserved (s.ip / 2) (by omega)
  simp only [hk, h.getElem?_eq hl, h.getElem?_eq (show s.ip + 1 < s.len by omega), Option.some.injEq, ne_eq] at hnot
  simp only [List.mem_cons, List.not_mem_nil, or_false] at hop
  have h7 := hnot (by omega)
  omega

/-- No step of such a program faults. -/
theorem OnCourse.expectedFault_eq (h : OnCourse prog s) (hshape : HaltingShape prog) (hl : s.ip < s.len) :
    expectedFault s = .noFault := by
  have h2 := h.ip_add_two_le hl
  have hop := h.read_le hl
  have hopd := h.read_le (show s.ip + 1 < s.len by omega)
  have hroom : s.outFull = false := by
    unfold State.outFull
    rw [h.room]
  have hreserved := h.operand_ne_seven hshape hl
  have hjump : (s.prog.read s.ip).toNat = 3 → (s.prog.read (s.ip + 1)).toNat = 0 := fun h3 =>
    h.operand_of_last hshape ((h.opcode_eq_three_iff hshape hl).1 h3)
  unfold expectedFault
  rw [if_neg (by omega), if_neg (by omega), if_neg (by omega), if_neg fun hr => hreserved hr.1 hr.2,
    if_neg fun hj => by have := hjump hj.1; omega, if_neg fun hf => by simp [hroom] at hf]

/-- A step inside the program executes the instruction of the two cells at `ip`, without a fault. -/
theorem OnCourse.exists_exec (h : OnCourse prog s) (hshape : HaltingShape prog) (hl : s.ip < s.len) :
    ∃ i t, i.opcode = s.prog.read s.ip ∧ i.operand = s.prog.read (s.ip + 1) ∧ step s = .next t ∧
      exec i s = .next t ∧ t.cause = .noFault := by
  have h2 := h.ip_add_two_le hl
  have hrun : s.status = .run := State.status_eq_run.2 ⟨h.noFault, hl⟩
  obtain ⟨t, ht, hcause⟩ := exists_step_cause_eq h.noFault hl
  rw [h.expectedFault_eq hshape hl] at hcause
  rcases fetchInstr_cases s with ⟨hlt, -⟩ | ⟨-, hgt, -⟩ | ⟨-, -, i, hop, hopd, ⟨-, hgt, -⟩ | ⟨-, e⟩⟩
  · omega
  · exact absurd (h.read_le hl) (by omega)
  · exact absurd (h.read_le (show s.ip + 1 < s.len by omega)) (by rw [← hopd]; omega)
  · exact ⟨i, t, hop, hopd, ht, (step_of_fetch_ok hrun e).symm.trans ht, hcause⟩

/-- A step without a fault that leaves `ip` even and within the program keeps the run on its course. -/
theorem OnCourse.of_step (h : OnCourse prog s) (hs : step s = .next t) (hc : t.cause = .noFault)
    (heven : t.ip % 2 = 0) (hle : t.ip ≤ s.len) : OnCourse prog t := by
  obtain ⟨hprog, hlen, hparams⟩ := step_keeps_program hs
  exact
    { cells := by rw [hprog]; exact h.cells
      small := h.small
      len := hlen.trans h.len
      noFault := hc
      ipEven := heven
      ipLe := hlen ▸ hle
      lenEven := hlen ▸ h.lenEven
      nonneg := ((Reaches.step .here hs).a_of_nonneg h.nonneg).1
      room := by rw [hparams, h.room] }

/-- A step at the jump: back to the first cell with A as it is, or out of the program where A is zero. -/
theorem OnCourse.stepsLeft_lt_of_jump (h : OnCourse prog s) (hshape : HaltingShape prog) {q : Nat}
    (hq : 2 * q < s.ip) (hlast : s.ip + 2 = s.len) {o : Cell} (ho : o = s.prog.read (s.ip + 1))
    (hs : step s = .next t) (he : exec (.jumpIfANonzero o) s = .next t) (hc : t.cause = .noFault) :
    OnCourse prog t ∧ stepsLeft q t < stepsLeft q s := by
  have ho0 : o.toNat = 0 := ho ▸ h.operand_of_last hshape hlast
  have hip := execJumpIfANonzero_ip he hc
  have ha : t.a = s.a := (a_of_exec he).resolve_right fun ⟨_, _, hi, _⟩ => by cases hi
  obtain ⟨-, hlen, -⟩ := step_keeps_program hs
  have hipEven := h.ipEven
  have hzero : s.a = 0 ↔ s.a.toInt.toNat = 0 := by
    have hnonneg := h.nonneg
    rw [← BitVec.toInt_inj, show (0 : Word).toInt = 0 from rfl]
    omega
  rw [ho0] at hip
  split_ifs at hip with hne
  · refine ⟨h.of_step hs hc (by omega) (by omega), ?_⟩
    unfold stepsLeft passesLeft
    rw [hlen, ha, hip, if_pos (Nat.zero_le _), if_neg (by omega), if_neg fun h0 => hne (hzero.2 h0), Nat.mul_succ]
    omega
  · refine ⟨h.of_step hs hc (by omega) (by omega), ?_⟩
    have h0 := hzero.1 (not_not.1 hne)
    refine stepsLeft_lt hlen (by omega) (by omega) ?_
    rw [ha, hip, h0]
    exact passesLeft_advance (le_refl 0) hipEven fun _ => .inl rfl

/-- A step at any other instruction: onward in the pass, with A no greater, and smaller at the `shift-A`. -/
theorem OnCourse.stepsLeft_lt_of_advance (h : OnCourse prog s) (hl : s.ip < s.len) {q : Nat} (hq : ShiftsAt prog q)
    {i : Instr} (hop : i.opcode = s.prog.read s.ip) (hopd : i.operand = s.prog.read (s.ip + 1)) (h3 : i.opcode ≠ 3)
    (hs : step s = .next t) (he : exec i s = .next t) (hc : t.cause = .noFault) :
    OnCourse prog t ∧ stepsLeft q t < stepsLeft q s := by
  have h2 := h.ip_add_two_le hl
  have hipEven := h.ipEven
  have hip : t.ip = s.ip + 2 := (exec_faultsOrAdvances s h3).ip_eq he hc
  obtain ⟨-, hlen, -⟩ := step_keeps_program hs
  have ha := (Reaches.step .here hs).a_of_nonneg h.nonneg
  refine ⟨h.of_step hs hc (by omega) (by omega), stepsLeft_lt hlen (by omega) (by omega) ?_⟩
  rw [hip]
  refine passesLeft_advance (by omega) hipEven fun hat => ?_
  obtain ⟨hin, hop0, hopd123⟩ := hq
  rw [← hat, h.getElem?_eq hl, Option.some.injEq, ← hop] at hop0
  simp only [← hat, h.getElem?_eq (show s.ip + 1 < s.len by omega), Option.some.injEq, ← hopd] at hopd123
  cases i with
  | shiftA o =>
    simp only [Instr.operand] at hopd123
    by_cases hpos : 0 < s.a.toInt
    · have hlt := a_lt_of_shiftA he (by omega) (by omega) hpos
      omega
    · omega
  | _ => simp [Instr.opcode] at hop0

/-- While `ip` is inside the program there is a step, it keeps the run on its course, and fewer steps are left. -/
theorem OnCourse.progress (h : OnCourse prog s) (hshape : HaltingShape prog) (hl : s.ip < s.len) {q : Nat}
    (hq : ShiftsAt prog q) : ∃ t, step s = .next t ∧ OnCourse prog t ∧ stepsLeft q t < stepsLeft q s := by
  obtain ⟨i, t, hop, hopd, hs, he, hc⟩ := h.exists_exec hshape hl
  refine ⟨t, hs, ?_⟩
  cases i with
  | jumpIfANonzero o =>
    have hlast : s.ip + 2 = s.len := (h.opcode_eq_three_iff hshape hl).1 (by rw [← hop]; rfl)
    have hqip : 2 * q < s.ip := by
      obtain ⟨hin, hop0, -⟩ := hq
      have hlen := h.len
      have hne : 2 * q ≠ s.ip := fun hat => by
        rw [hat, h.getElem?_eq hl, ← hop] at hop0
        simp [Instr.opcode] at hop0
      omega
    exact h.stepsLeft_lt_of_jump hshape hqip hlast hopd hs he hc
  | _ => exact h.stepsLeft_lt_of_advance hl hq hop hopd (by simp [Instr.opcode]) hs he hc

/-- A run on its course halts within the steps left. -/
theorem OnCourse.halts (h : OnCourse prog s) (hshape : HaltingShape prog) {q : Nat} (hq : ShiftsAt prog q) {n : Nat}
    (hn : stepsLeft q s ≤ n) : ∃ o, runUpTo n s = .halted o := by
  induction n generalizing s with
  | zero =>
    have hleft : s.len / 2 - s.ip / 2 = 0 := by
      unfold stepsLeft at hn
      omega
    have hle : s.len ≤ s.ip := by
      have hlen := h.lenEven
      omega
    exact ⟨s.out, runUpTo_halt (State.status_eq_halt.2 ⟨h.noFault, hle⟩)⟩
  | succ n ih =>
    by_cases hl : s.ip < s.len
    · obtain ⟨t, hs, ht, hlt⟩ := h.progress hshape hl hq
      rw [runUpTo_next hs]
      exact ih ht (by omega)
    · exact ⟨s.out, runUpTo_halt (State.status_eq_halt.2 ⟨h.noFault, Nat.not_lt.1 hl⟩)⟩

end shape

end Sys2Proof.Machine

namespace Sys2Proof

open Machine

/-- Settles O44, by the bound on the steps left at the launch: one pass, and as many after it as A says. -/
theorem programsOfTheShapeHalt : Obligations.ProgramsOfTheShapeHalt := by
  unfold Obligations.ProgramsOfTheShapeHalt
  intro p i s hlaunch hcap ha0 hshape
  obtain ⟨hnone, rfl⟩ := launch_eq_ok.1 hlaunch
  obtain ⟨heven, hcells, -, ha64, -, -⟩ := launchRefusal_eq_none.1 hnone
  have ha : (launchState p i).a.toInt = i.a0 := toInt_ofInt_of_isInt64 ha64
  have hcourse : OnCourse i.prog (launchState p i) :=
    { cells := fun k v hk => launchState_read hcells hk
      small := hcells
      len := rfl
      noFault := rfl
      ipEven := rfl
      ipLe := Nat.zero_le _
      lenEven := heven
      nonneg := ha ▸ ha0
      room := hcap }
  obtain ⟨q, hq⟩ := hshape.shifts
  have hsteps : stepsLeft q (launchState p i) = (i.a0.toNat + 1) * (i.prog.length / 2) := by
    unfold stepsLeft passesLeft
    rw [ha, show (launchState p i).ip = 0 from rfl, show (launchState p i).len = i.prog.length from rfl,
      if_pos (Nat.zero_le _), Nat.zero_div, Nat.sub_zero]
    ring
  exact hcourse.halts hshape hq hsteps.le

end Sys2Proof
end

section
/-! PROOF. Assembly text (R82): what an operand, an instruction and a program are written as is read back. -/

namespace Sys2Proof.Machine

/-- A cell written as its number is read back. -/
theorem ofNat_toNat_cell (sel : Cell) : BitVec.ofNat 8 sel.toNat = sel := BitVec.eq_of_toNat_eq (by simp)

/-- A combo operand is read back from a register's name, from `?7`, or from `#` and its number (R82). -/
theorem assembleOperand_writeOperand_combo {sel : Cell} (h : sel.toNat ≤ 7) :
    assembleOperand .combo (writeOperand .combo sel) = some sel := by
  simp only [writeOperand]
  split
  next h4 => exact congrArg some (BitVec.eq_of_toNat_eq h4.symm)
  next h5 => exact congrArg some (BitVec.eq_of_toNat_eq h5.symm)
  next h6 => exact congrArg some (BitVec.eq_of_toNat_eq h6.symm)
  next h7 => exact congrArg some (BitVec.eq_of_toNat_eq h7.symm)
  next h4 h5 h6 h7 =>
    have h3 : sel.toNat ≤ 3 := by
      simp only [imp_false] at h4 h5 h6 h7
      omega
    exact (if_pos h3).trans (congrArg some (ofNat_toNat_cell sel))

/-- Every operand in range is read back from how its kind writes it (R82). -/
theorem assembleOperand_writeOperand (k : OperandKind) {sel : Cell} (h : sel.toNat ≤ 7) :
    assembleOperand k (writeOperand k sel) = some sel := by
  cases k with
  | combo => exact assembleOperand_writeOperand_combo h
  | literal => exact (if_pos h).trans (congrArg some (ofNat_toNat_cell sel))
  | ignored => exact (if_pos h).trans (congrArg some (ofNat_toNat_cell sel))

/-- A mnemonic names its instruction's opcode and operand kind (R75, R82). -/
theorem opcodeOfMnemonic_mnemonic (i : Instr) : opcodeOfMnemonic i.mnemonic = some (i.opcode, i.operandKind) := by
  cases i <;> simp [opcodeOfMnemonic, Instr.mnemonic, Instr.opcode, Instr.operandKind]

/-- The line of an instruction assembles to its cells (R82). -/
theorem assembleLine_asmLine {i : Instr} (h : i.WellFormed) : assembleLine (asmLine i) = some (encode i) := by
  unfold assembleLine asmLine
  simp only [opcodeOfMnemonic_mnemonic, assembleOperand_writeOperand i.operandKind h]
  rfl

/-- A program assembles line by line (R82). -/
theorem assemble_asmLines {is : List Instr} (h : ∀ i ∈ is, i.WellFormed) :
    assemble (is.map asmLine) = some (is.flatMap encode) := by
  induction is with
  | nil => rfl
  | cons i rest ih =>
    have hline := assembleLine_asmLine (h i (List.mem_cons_self ..))
    have hrest := ih fun j hj => h j (List.mem_cons_of_mem i hj)
    rw [List.map_cons, assemble, hline, hrest, List.flatMap_cons]

/-! ### The codes of the status -/

/-- The code 0 is that of no fault alone (R161). -/
theorem Cause.code_eq_zero {c : Cause} : c.code = 0 ↔ c = .noFault := by
  cases c <;> decide

/-- The status that the host reads (R32). -/
theorem status_code_eq (s : State) :
    s.status.code = if s.cause.code ≠ 0 then 2 else if s.len ≤ s.ip then 1 else 0 := by
  unfold State.status
  simp only [ne_eq, Cause.code_eq_zero]
  split
  · rfl
  · split <;> rfl

end Sys2Proof.Machine

namespace Sys2Proof

open Machine

/-- Settles O48, by the round trip of a line and the induction over the lines. -/
theorem assemblyReadsBackTheInstruction : Obligations.AssemblyReadsBackTheInstruction := by
  unfold Obligations.AssemblyReadsBackTheInstruction
  exact ⟨fun _ => assembleLine_asmLine, fun _ => assemble_asmLines, by decide⟩

/-- Settles O49: the codes by computation, and the status by the two tests that it makes. -/
theorem codesOfStatusAndCause : Obligations.CodesOfStatusAndCause := by
  unfold Obligations.CodesOfStatusAndCause
  exact ⟨rfl, rfl, rfl, rfl, rfl, rfl, rfl, rfl, rfl, rfl, status_code_eq⟩

end Sys2Proof
end
